-- ==== Sys2Proof/Word.lean ====
section
/-! DEFINITION. The word and byte types of the codec core. -/
namespace Sys2Proof

/-- A 32-bit register or command word (R20, R80). -/
abbrev Word := BitVec 32

/-- One byte of engine memory or of the output stream (R61). -/
abbrev Byte := BitVec 8

end Sys2Proof
end

