-- ==== Sys2Proof/Config.lean ====
section
/-! DEFINITION. What the platform fixes (the parameters of R7) and the values the spec leaves free. -/
namespace Sys2Proof

/-- An RGB colour: three components in 0..255 (R13). -/
structure Rgb where
  r : Byte
  g : Byte
  b : Byte
  deriving DecidableEq, Repr, Inhabited

/-- Parameter GRAY_TOP (R7): what the gray-ramp index does when its formula gives 256 (R102). -/
inductive GrayTop where
  | clamp
  | cube
  deriving DecidableEq, Repr

/-- The implementation parameters of R7, which the model takes as an argument: no step changes them.
MEM_SIZE and LANES are stored less one and REG_BASE in pages of 256 bytes, so that every value of this
type is a legal parameter set. -/
structure Params where
  /-- The highest engine address: MEM_SIZE is this plus one, so 1 to 2^32 (R7, R60). -/
  topAddr : BitVec 32
  /-- REG_BASE divided by 256 (R7: any, 256-byte aligned). -/
  regPage : Nat
  /-- LANES less one (R7: an integer of at least 1). -/
  lanesPred : Nat
  /-- BASE16_RGB, palette entries 0 to 15 (R7, R43). -/
  base16 : Vector Rgb 16
  /-- GRAY_TOP (R7, R102). -/
  grayTop : GrayTop
  deriving DecidableEq, Repr

namespace Config

/-- MEM_SIZE less one of the platform at hand: OPEN in R7 (D10), free. -/
opaque topAddr : BitVec 32

/-- REG_BASE in pages of 256 bytes: OPEN in R7 (D2), free. -/
opaque regPage : Nat

/-- LANES less one: OPEN in R7 (D41), free. -/
opaque lanesPred : Nat

/-- BASE16_RGB: OPEN in R7 (D22), free. -/
opaque base16Rgb : Vector Rgb 16

/-- Free value: the byte at an address that nothing has written (R250, 93 #6). -/
opaque powerOnByte : (addr : Nat) → BitVec 8

/-- Free value: the byte the spec draws freely at an address, at the draw of the given number
(a racing host read R67, the bytes of an abandoned command R251). -/
opaque freeByte : (draw : Nat) → (addr : Nat) → BitVec 8

/-- The parameters of the platform at hand; GRAY_TOP has the spec's value taken, CLAMP (R7, D19). -/
def params : Params :=
  { topAddr := topAddr, regPage := regPage, lanesPred := lanesPred, base16 := base16Rgb, grayTop := .clamp }

/-- The ID register's reset and only value (R21). -/
def idValue : Word := 0x53580007#32

end Config
end Sys2Proof
end

