-- ==== Sys2Proof/Machine/State.lean ====
section
/-! DEFINITION. The machine's state as plain data (R20 to R49), its value at reset (R250), and the
reasons a step can stop. -/
namespace Sys2Proof.Machine

/-- The stored fields of CTRL (R22). SRST is write-only and stores nothing. -/
structure Ctrl where
  ieDone : Bool
  ieErr : Bool
  dout : Bool
  palMode : Bool
  deriving DecidableEq, Repr

/-- The fields of STATUS (R23). -/
structure Status where
  busy : Bool
  done : Bool
  err : Bool
  fatal : Bool
  errcode : BitVec 4
  deriving DecidableEq, Repr

/-- The registers of the block reduced to their non-reserved fields (R20, R49). ID is hard-wired (R21)
and stores nothing. -/
structure Regs where
  ctrl : Ctrl
  status : Status
  /-- CMD: the last accepted command word (R24). -/
  cmd : Word
  /-- FORMAT.CHANNELS (R25). -/
  channels : BitVec 8
  /-- FORMAT.BITS (R25). -/
  bits : BitVec 8
  /-- WIDTH.W (R26). -/
  width : BitVec 16
  /-- HEIGHT.H (R27). -/
  height : BitVec 16
  /-- STRIDE (R28). -/
  stride : Word
  /-- SRC_BASE (R29). -/
  srcBase : Word
  /-- DBUF_BASE (R30). -/
  dbufBase : Word
  /-- OUT_BASE (R31). -/
  outBase : Word
  /-- OUT_CAP (R32). -/
  outCap : Word
  /-- OUT_LEN (R33). -/
  outLen : Word
  /-- QSTEP.n (R34). -/
  qstep : BitVec 8
  /-- NCOLS.ncols (R35). -/
  ncols : BitVec 8
  /-- ARG0 (R36). -/
  arg0 : Word
  /-- ARG1 (R37). -/
  arg1 : Word
  /-- RESULT0 (R38). -/
  result0 : Word
  /-- RESULT1 (R39). -/
  result1 : Word
  deriving DecidableEq, Repr

/-- Every register at its reset value (R20, R250). -/
def Regs.reset : Regs :=
  { ctrl := { ieDone := false, ieErr := false, dout := false, palMode := false }
    status := { busy := false, done := false, err := false, fatal := false, errcode := 0#4 }
    cmd := 0#32
    channels := 1#8
    bits := 8#8
    width := 0#16
    height := 0#16
    stride := 0#32
    srcBase := 0#32
    dbufBase := 0#32
    outBase := 0#32
    outCap := 0#32
    outLen := 0#32
    qstep := 0#8
    ncols := 0#8
    arg0 := 0#32
    arg1 := 0#32
    result0 := 0#32
    result1 := 0#32 }

/-- Engine memory (R60): the bytes written so far, by strictly rising address. An address with no entry
holds its power-on byte, whose value the spec leaves unspecified (R250). -/
abbrev Memory := List Host.Cell

/-- The width of a host register access (R62): only the 32-bit one can have an effect. -/
inductive AccessWidth where
  | byte
  | half
  | word
  deriving DecidableEq, Repr

/-- One action of the host (R16, R87, R211): what the host may do to the block and to engine memory.
`addr` of a register access is a platform address; a memory address is the engine's (R60). -/
inductive HostAction where
  /-- Write `v` to the register at `addr`. -/
  | regWrite (width : AccessWidth) (addr : Nat) (v : Word)
  /-- Read the register at `addr`. -/
  | regRead (width : AccessWidth) (addr : Nat)
  /-- Write one byte of engine memory. -/
  | memWrite (addr : Nat) (v : Byte)
  /-- Read one byte of engine memory. -/
  | memRead (addr : Nat)
  /-- Observe the interrupt line (R16, R227). -/
  | irqRead
  /-- Drive the platform's reset input (R250, R252). -/
  | hardReset
  /-- Read STATUS until BUSY is 0 (the `wait` of R88): the engine moves first. -/
  | wait
  deriving DecidableEq, Repr

/-- The machine (R49), with the parameters it takes (R7) and the model's own fields. -/
structure State where
  /-- The register block (R20). -/
  regs : Regs
  /-- Engine memory (R60). -/
  mem : Memory
  /-- The model-only mark HOST_RACE (R232). -/
  hostRace : Bool
  /-- The parameters of R7; no step changes them. -/
  params : Params
  /-- The model's own: how many free draws were made; numbers the draws of `Config.freeByte`. -/
  draws : Nat
  /-- The model's own: what the host does next, in order (R16, R87). -/
  host : List HostAction
  /-- The model's own: the value the host's last read or observation of the interrupt line returned. -/
  hostData : Word
  deriving DecidableEq, Repr

/-- The machine right after reset (R250): every register at its reset value, no byte of memory written,
HOST_RACE clear (R232), the platform's parameters, and no host action under way. -/
def State.reset : State :=
  { regs := Regs.reset, mem := [], hostRace := false, params := Config.params,
    draws := 0, host := [], hostData := 0#32 }

/-- The reasons the model stops. Neither is raised by a command. -/
inductive Fault where
  /-- Raised by a host access to engine memory at or above MEM_SIZE, where the spec says there is no
  memory (R60). Safe: the model stops where the platform would do something the spec does not give. -/
  | hostOutsideMemory (addr : Nat)
  /-- Raised by a host register access at a platform address outside the 256 bytes at REG_BASE (R20, R73),
  which is no access to this block. Safe, for the same reason. -/
  | hostOutsideBlock (addr : Nat)
  deriving DecidableEq, Repr

/-- The reasons the model has no meaning for an instruction. -/
inductive Refusal where
  /-- Raised by the arm of an instruction that has no meaning yet; no arm raises it in this model. Safe. -/
  | notModelled (mnemonic : String)
  deriving DecidableEq, Repr

end Sys2Proof.Machine
end

