-- ==== Sys2Proof/Machine/Flags.lean ====
section
/-! DEFINITION. STATUS and CTRL: the error codes (R220), the status changes of acceptance (R84), completion
(R222, R223) and acknowledge (R226), the two words as the host reads them, and the interrupt line (R227). -/
namespace Sys2Proof.Machine

/-- The errors a command can end with (R220). -/
inductive CmdError where
  | illegalCmd
  | format
  | precond
  | internal
  | outOverflow
  | bus
  | config
  deriving DecidableEq, Repr

/-- The code of an error (R220). -/
def CmdError.code : CmdError → BitVec 4
  | .illegalCmd => 1#4
  | .format => 2#4
  | .precond => 3#4
  | .internal => 4#4
  | .outOverflow => 5#4
  | .bus => 6#4
  | .config => 7#4

/-- Codes 3 and 4 are fatal (R220, R222). -/
def CmdError.fatal (e : CmdError) : Bool := e.code == 3#4 || e.code == 4#4

/-- STATUS when a command word is accepted (R84). -/
def Status.accept (st : Status) : Status :=
  { st with busy := true, done := false, err := false, errcode := 0#4 }

/-- STATUS when a command completes without error (R223). -/
def Status.complete (st : Status) : Status := { st with busy := false, done := true }

/-- STATUS when a command completes with an error (R222). -/
def Status.fail (st : Status) (e : CmdError) : Status :=
  { busy := false, done := false, err := true, fatal := st.fatal || e.fatal, errcode := e.code }

/-- STATUS after a host write: DONE and ERR are cleared by a written 1, and ERR takes ERRCODE with it
(R23, R226). -/
def Status.acknowledge (st : Status) (clearDone clearErr : Bool) : Status :=
  { st with
    done := st.done && !clearDone
    err := st.err && !clearErr
    errcode := if clearErr then 0#4 else st.errcode }

/-- A bit at its place in a register word. -/
def bitAt (b : Bool) (i : Nat) : Nat := if b then 2 ^ i else 0

/-- The word a read of STATUS returns (R23); reserved bits read 0. -/
def Status.word (st : Status) : Word :=
  BitVec.ofNat 32 (bitAt st.busy 0 + bitAt st.done 1 + bitAt st.err 2 + bitAt st.fatal 3 + st.errcode.toNat * 2 ^ 8)

/-- The word a read of CTRL returns (R22); SRST and the reserved bits read 0. -/
def Ctrl.word (c : Ctrl) : Word :=
  BitVec.ofNat 32 (bitAt c.ieDone 1 + bitAt c.ieErr 2 + bitAt c.dout 3 + bitAt c.palMode 4)

/-- CTRL after a host write without SRST: DOUT and PALMODE keep their values while BUSY (R22, R254). -/
def Ctrl.write (c : Ctrl) (busy : Bool) (v : Word) : Ctrl :=
  { ieDone := v[1]
    ieErr := v[2]
    dout := if busy then c.dout else v[3]
    palMode := if busy then c.palMode else v[4] }

/-- The interrupt line (R227). -/
def State.irq (s : State) : Bool :=
  (s.regs.status.done && s.regs.ctrl.ieDone) || (s.regs.status.err && s.regs.ctrl.ieErr)

end Sys2Proof.Machine
end

