-- ==== Sys2Proof/Syntax.lean ====
section
/-! DEFINITION. The commands of the opcode map (R83), one constructor per row of the opcode table. -/
namespace Sys2Proof

/-- A command. `pc` is the palette index of IMM8 and `b` the band index of IMM16 (R80, R82). -/
inductive Instr where
  /-- 0x00, R210. -/
  | nop
  /-- 0x01, R111. -/
  | qselect
  /-- 0x02, R112. -/
  | luma
  /-- 0x03, R113. -/
  | grayidx
  /-- 0x04, R114. -/
  | cubeidx
  /-- 0x05, R115. -/
  | cdist
  /-- 0x06, R116. -/
  | qtrunc
  /-- 0x07, R117. -/
  | palread
  /-- 0x10, R141. -/
  | loadgray
  /-- 0x11, R142. -/
  | map256
  /-- 0x12, R148. -/
  | dither
  /-- 0x20, R179. -/
  | sixchar (pc : Nat) (b : Nat)
  /-- 0x21, R180. -/
  | encseg (pc : Nat) (b : Nat)
  /-- 0x22, R181. -/
  | encband (b : Nat)
  /-- 0x23, R182. -/
  | encframe
  deriving DecidableEq, Repr

end Sys2Proof
end

