-- ==== Sys2Proof/WellFormed.lean ====
section
/-! DEFINITION. Which commands a command word can express: the ranges of the immediates (R80, R82). -/
namespace Sys2Proof

/-- A palette index fits IMM8: 0..255 (R82). -/
def paletteIndexFits (pc : Nat) : Bool := pc < 256

/-- A band index fits IMM16: 0..65535 (R82). -/
def bandIndexFits (b : Nat) : Bool := b < 65536

/-- The command has an encoding. -/
def Instr.wellFormed : Instr → Bool
  | .nop => true
  | .qselect => true
  | .luma => true
  | .grayidx => true
  | .cubeidx => true
  | .cdist => true
  | .qtrunc => true
  | .palread => true
  | .loadgray => true
  | .map256 => true
  | .dither => true
  | .sixchar pc b => paletteIndexFits pc && bandIndexFits b
  | .encseg pc b => paletteIndexFits pc && bandIndexFits b
  | .encband b => bandIndexFits b
  | .encframe => true

end Sys2Proof
end

