-- ==== Sys2Proof/Decode.lean ====
section
/-! DEFINITION. Command words: fields, decoding with the illegal words rejected by name, and encoding
(R80 to R86, R88). -/
namespace Sys2Proof

/-- The field `w[hi:lo]`, zero-extended (R9). -/
def bitsOf (w : Word) (hi lo : Nat) : Nat := w.toNat / 2 ^ lo % 2 ^ (hi + 1 - lo)

/-- The three word formats (R81): no operand, band, segment. -/
inductive Format where
  | n
  | b
  | s
  deriving DecidableEq, Repr

/-- Why a word is illegal (R85). Each of the three raises ILLEGAL_CMD when the engine decodes the word. -/
inductive DecodeError where
  /-- OP is not in the opcode map (R83, R85). -/
  | reservedOpcode
  /-- A format N word with a non-zero bit in 31:8. -/
  | formatNNonZero
  /-- A format B word with a non-zero bit in 15:8. -/
  | formatBNonZero
  deriving DecidableEq, Repr

/-- The opcode map (R83): the format of an opcode and the command it selects, given the immediates;
none for a reserved opcode. -/
def opcodeMap (op pc b : Nat) : Option (Format × Instr) :=
  match op with
  | 0x00 => some (.n, .nop)
  | 0x01 => some (.n, .qselect)
  | 0x02 => some (.n, .luma)
  | 0x03 => some (.n, .grayidx)
  | 0x04 => some (.n, .cubeidx)
  | 0x05 => some (.n, .cdist)
  | 0x06 => some (.n, .qtrunc)
  | 0x07 => some (.n, .palread)
  | 0x10 => some (.n, .loadgray)
  | 0x11 => some (.n, .map256)
  | 0x12 => some (.n, .dither)
  | 0x20 => some (.s, .sixchar pc b)
  | 0x21 => some (.s, .encseg pc b)
  | 0x22 => some (.b, .encband b)
  | 0x23 => some (.n, .encframe)
  | _ => none

/-- Decoding of an accepted word (R85), with the immediates of R82. -/
def decode (w : Word) : Except DecodeError Instr :=
  match opcodeMap (bitsOf w 7 0) (bitsOf w 15 8) (bitsOf w 31 16) with
  | none => .error .reservedOpcode
  | some (.n, i) => if bitsOf w 31 8 = 0 then .ok i else .error .formatNNonZero
  | some (.b, i) => if bitsOf w 15 8 = 0 then .ok i else .error .formatBNonZero
  | some (.s, i) => .ok i

/-- The opcode of a command (R83). -/
def Instr.opcode : Instr → Nat
  | .nop => 0x00
  | .qselect => 0x01
  | .luma => 0x02
  | .grayidx => 0x03
  | .cubeidx => 0x04
  | .cdist => 0x05
  | .qtrunc => 0x06
  | .palread => 0x07
  | .loadgray => 0x10
  | .map256 => 0x11
  | .dither => 0x12
  | .sixchar _ _ => 0x20
  | .encseg _ _ => 0x21
  | .encband _ => 0x22
  | .encframe => 0x23

/-- The palette-index immediate; an absent one is 0 (R88). -/
def Instr.immPc : Instr → Nat
  | .sixchar pc _ => pc
  | .encseg pc _ => pc
  | .nop | .qselect | .luma | .grayidx | .cubeidx | .cdist | .qtrunc | .palread
  | .loadgray | .map256 | .dither | .encband _ | .encframe => 0

/-- The band-index immediate; an absent one is 0 (R88). -/
def Instr.immB : Instr → Nat
  | .sixchar _ b => b
  | .encseg _ b => b
  | .encband b => b
  | .nop | .qselect | .luma | .grayidx | .cubeidx | .cdist | .qtrunc | .palread
  | .loadgray | .map256 | .dither | .encframe => 0

/-- `enc(X) = (b << 16) | (pc << 8) | OP` (R88), the word of a well-formed command. -/
def encode (i : Instr) : Word :=
  BitVec.ofNat 32 (i.immB * 2 ^ 16 + i.immPc * 2 ^ 8 + i.opcode)

/-- The 32-bit command word that `nbits` table bits make: every command is one word, complete in
itself (R80), and the bits above `nbits` are zero. -/
def tableWord (nbits w : Nat) : Word := BitVec.ofNat 32 (w % 2 ^ nbits)

/-- The command the decoder reads from a word given as the opcode table numbers its bits. -/
def decodeTableWord (nbits w : Nat) : Option Instr := (decode (tableWord nbits w)).toOption

end Sys2Proof
end

