-- ==== Sys2Proof/Machine/Operands.lean ====
section
/-! DEFINITION. Where a command's operands come from: samples and colours in ARG0 and ARG1 (R13), the
image geometry, the regions and the addresses of engine memory (R63 to R65), the parameters (R7). -/
namespace Sys2Proof.Machine

/-- `rgb(v)` (R13): bits 31:24 are ignored. -/
def rgbOf (v : Word) : Rgb :=
  { r := BitVec.ofNat 8 (bitsOf v 23 16), g := BitVec.ofNat 8 (bitsOf v 15 8), b := BitVec.ofNat 8 (bitsOf v 7 0) }

/-- `pack(R, G, B)` (R13): bits 31:24 are zero. -/
def packRgb (c : Rgb) : Word :=
  BitVec.ofNat 32 (c.r.toNat * 2 ^ 16 + c.g.toNat * 2 ^ 8 + c.b.toNat)

/-- `csr[ARG0][7:0]`: the sample, luminance or index operand (R111, R113, R117). -/
def State.sample (s : State) : Nat := bitsOf s.regs.arg0 7 0

/-- MEM_SIZE (R7, R60). -/
def Params.memSize (p : Params) : Nat := p.topAddr.toNat + 1

/-- LANES (R7). -/
def Params.lanes (p : Params) : Nat := p.lanesPred + 1

/-- REG_BASE (R7). -/
def Params.regBase (p : Params) : Nat := p.regPage * 256

/-- MEM_SIZE of this machine. -/
def State.memSize (s : State) : Nat := Params.memSize s.params

/-- W (R26). -/
def State.imgW (s : State) : Nat := s.regs.width.toNat

/-- H (R27). -/
def State.imgH (s : State) : Nat := s.regs.height.toNat

/-- The divisor n of the linear quantizer (R34). -/
def State.divisor (s : State) : Nat := s.regs.qstep.toNat

/-- N, the highest palette index (R35). -/
def State.maxIndex (s : State) : Nat := s.regs.ncols.toNat

/-- The format (1, 8): `gray8` (R140). -/
abbrev State.gray8 (s : State) : Prop := s.regs.channels = 1#8 ∧ s.regs.bits = 8#8

/-- The format (3, 8): `rgb8` (R140). -/
abbrev State.rgb8 (s : State) : Prop := s.regs.channels = 3#8 ∧ s.regs.bits = 8#8

/-- W = 0 or H = 0 (R26, R27). -/
abbrev State.emptyImage (s : State) : Prop := s.imgW = 0 ∨ s.imgH = 0

/-- A half-open interval of byte addresses (R63). -/
structure Region where
  lo : Nat
  hi : Nat
  deriving DecidableEq, Repr

/-- The address lies in the region. -/
abbrev Region.contains (g : Region) (a : Nat) : Prop := g.lo ≤ a ∧ a < g.hi

/-- Two intervals overlap (R65). -/
abbrev Region.overlaps (g k : Region) : Prop := g.lo < g.hi ∧ k.lo < k.hi ∧ g.lo < k.hi ∧ k.lo < g.hi

/-- The region's end passes the given memory size (R64). -/
abbrev Region.passes (g : Region) (size : Nat) : Prop := size < g.hi

/-- SRCR (R63). Its end is SRC_BASE + (H − 1)·STRIDE + W·ch; where that is below zero (only when H = 0)
the end is 0 and the interval empty either way. -/
def State.srcRegion (s : State) : Region :=
  { lo := s.regs.srcBase.toNat
    hi := s.regs.srcBase.toNat + s.imgH * s.regs.stride.toNat + s.imgW * s.regs.channels.toNat - s.regs.stride.toNat }

/-- DBR (R63). -/
def State.dbufRegion (s : State) : Region :=
  { lo := s.regs.dbufBase.toNat, hi := s.regs.dbufBase.toNat + s.imgW * s.imgH }

/-- OUTW (R63). -/
def State.outWindow (s : State) : Region :=
  { lo := s.regs.outBase.toNat, hi := s.regs.outBase.toNat + s.regs.outCap.toNat }

/-- `src_addr(r, c, j)` (R63). -/
def State.srcAddr (s : State) (r c j : Nat) : Nat :=
  s.regs.srcBase.toNat + r * s.regs.stride.toNat + c * s.regs.channels.toNat + j

/-- `dbuf_addr(r, c)` (R63). -/
def State.dbufAddr (s : State) (r c : Nat) : Nat := s.regs.dbufBase.toNat + r * s.imgW + c

/-- nb, the number of bands (R170). -/
def State.numBands (s : State) : Nat := (s.imgH + 5) / 6

/-- The regions of R63 the command uses while it runs, those its rule reads or writes: the ones of the
host duty (R67). -/
def State.regionsOf (s : State) : Instr → List Region
  | .nop | .qselect | .luma | .grayidx | .cubeidx | .cdist | .qtrunc | .palread => []
  | .loadgray | .map256 => [s.srcRegion, s.dbufRegion]
  | .dither => [s.dbufRegion]
  | .sixchar _ _ => [s.dbufRegion]
  | .encseg _ _ | .encband _ | .encframe => [s.dbufRegion, s.outWindow]

/-- The bytes the command could write (R251): the working region, or the output window from
OUT_BASE + OUT_LEN on. -/
def State.writableOf (s : State) : Instr → Region
  | .nop | .qselect | .luma | .grayidx | .cubeidx | .cdist | .qtrunc | .palread | .sixchar _ _ =>
    { lo := 0, hi := 0 }
  | .loadgray | .map256 | .dither => s.dbufRegion
  | .encseg _ _ | .encband _ | .encframe =>
    { lo := s.regs.outBase.toNat + s.regs.outLen.toNat, hi := s.regs.outBase.toNat + s.regs.outCap.toNat }

end Sys2Proof.Machine
end

