-- ==== Sys2Proof/Machine/Ops.lean ====
section
/-! DEFINITION. The shared operations: memory bytes (R61), bounded loops, the arithmetic and byte-string
helpers of R10 and R11, and how a command is accepted, completes, fails and is acknowledged (R84, R222,
R223, R226). -/
namespace Sys2Proof.Machine

/-- The byte an address holds, none where nothing has been written. -/
def Memory.lookup : Memory → Nat → Option Byte
  | [], _ => none
  | (b, v) :: m, a => if a = b then some v else Memory.lookup m a

/-- `MemRead(a, 1)` (R61). A byte that nothing has written has its unspecified power-on value (R250):
this is the ONE definition of what an unlisted address reads as. -/
def Memory.read (m : Memory) (a : Nat) : Byte := (Memory.lookup m a).getD (Config.powerOnByte a)

/-- `MemWrite(a, 1, v)` (R61): the entry of `a` in its place among rising addresses. -/
def Memory.write : Memory → Nat → Byte → Memory
  | [], a, v => [(a, v)]
  | (b, w) :: m, a, v =>
    if a < b then (a, v) :: (b, w) :: m
    else if a = b then (a, v) :: m
    else (b, w) :: Memory.write m a v

/-- Consecutive bytes stored at rising addresses (R178). -/
def Memory.writeBytes : Memory → Nat → List Byte → Memory
  | m, _, [] => m
  | m, a, x :: xs => Memory.writeBytes (Memory.write m a x) (a + 1) xs

/-- Addresses strictly rise, the first being at least `lo`. -/
def Memory.risesFrom : Nat → Memory → Bool
  | _, [] => true
  | lo, (a, _) :: m => decide (lo ≤ a) && Memory.risesFrom (a + 1) m

/-- The canonical form: addresses strictly rise and lie below MEM_SIZE (R60). -/
def Memory.wf (size : Nat) (m : Memory) : Bool :=
  Memory.risesFrom 0 m && m.all (fun c => decide (c.1 < size))

/-- `for i in 0 .. n−1`, ascending. -/
def forUpTo {σ : Type} : Nat → (Nat → σ → σ) → σ → σ
  | 0, _, x => x
  | n + 1, f, x => f n (forUpTo n f x)

/-- `for r in 0 .. H−1: for c in 0 .. W−1`, in raster order (R147). -/
def forEachPixel {σ : Type} (h w : Nat) (f : Nat → Nat → σ → σ) (x : σ) : σ :=
  forUpTo h (fun r => forUpTo w (f r)) x

/-- `tdiv(a, b)` (R10): the quotient rounded toward zero. -/
def tdiv (a : Int) (b : Nat) : Int := a.sign * ((a.natAbs / b : Nat) : Int)

/-- `sat8(v)` (R11). -/
def sat8 (v : Int) : Byte := BitVec.ofNat 8 (min v.toNat 255)

/-- `rhu(a, b)` (R11): a/b rounded half up. -/
def rhu (a b : Nat) : Nat := (2 * a + b) / (2 * b)

/-- The ASCII byte of a decimal digit (R9). -/
def digitByte (d : Nat) : Byte := BitVec.ofNat 8 (0x30 + d)

/-- The digits of `n` before those already collected; `fuel` bounds their number. -/
def decDigits : Nat → Nat → List Byte → List Byte
  | 0, _, acc => acc
  | fuel + 1, n, acc =>
    if n < 10 then digitByte n :: acc else decDigits fuel (n / 10) (digitByte (n % 10) :: acc)

/-- `dec(n)` (R11): the decimal digits, most significant first, no leading zeros. -/
def dec (n : Nat) : List Byte := decDigits (n + 1) n []

/-- The byte of engine memory at an address. -/
def State.byteAt (s : State) (a : Nat) : Byte := Memory.read s.mem a

/-- The working pixel `P(r, c)` as a number. -/
def State.pixel (s : State) (r c : Nat) : Nat := (s.byteAt (s.dbufAddr r c)).toNat

/-- The state with another STATUS. -/
def State.setStatus (s : State) (st : Status) : State := { s with regs := { s.regs with status := st } }

/-- The state with another engine memory. -/
def State.setMem (s : State) (m : Memory) : State := { s with mem := m }

/-- `csr[RESULT0] <- v` (R38). -/
def State.setResult0 (s : State) (v : Word) : State := { s with regs := { s.regs with result0 := v } }

/-- `csr[RESULT1] <- v` (R39). -/
def State.setResult1 (s : State) (v : Word) : State := { s with regs := { s.regs with result1 := v } }

/-- `csr[OUT_LEN] <- v` (R33). -/
def State.setOutLen (s : State) (v : Word) : State := { s with regs := { s.regs with outLen := v } }

/-- A word is accepted (the else branch of R84). -/
def State.acceptWord (s : State) (w : Word) : State :=
  { s with regs := { s.regs with cmd := w, status := s.regs.status.accept } }

/-- A host write of a word to CMD (R84): dropped while BUSY or FATAL. -/
def State.offerWord (s : State) (w : Word) : State :=
  if s.regs.status.busy || s.regs.status.fatal then s else s.acceptWord w

/-- Completion without error (R223). -/
def State.complete (s : State) : State := s.setStatus s.regs.status.complete

/-- Completion with an error (R222), this machine's taking of an exception: only STATUS changes (R221). -/
def State.raiseError (s : State) (e : CmdError) : State := s.setStatus (s.regs.status.fail e)

/-- The host's acknowledge (R226), this machine's return from an exception: a write of `v` to STATUS
clears DONE by bit 1 and ERR with ERRCODE by bit 2 (R23). -/
def State.acknowledge (s : State) (v : Word) : State :=
  s.setStatus (s.regs.status.acknowledge (v[1]) (v[2]))

/-- The end of a command from state `s`: its effect and R223, or the error of its first failing check and
R222, with none of its effect (R221). -/
def finish (s : State) (r : Except CmdError State) : Host.Outcome State Fault Refusal :=
  match r with
  | .ok t => .next t.complete
  | .error e => .next (s.raiseError e)

end Sys2Proof.Machine
end

