-- ==== Sys2Proof/Machine/BandEncoder.lean ====
section
/-! DEFINITION. The band encoder: bit packer, edge list, run-length compressor, segment framing (R170 to
R178) and the commands SIXCHAR, ENCSEG, ENCBAND and ENCFRAME (R179 to R182). -/
namespace Sys2Proof.Machine

/-- The bit of band row k in `mask(b, pc, c)` (R171): absent rows and other values contribute nothing. -/
def maskBit (s : State) (b pc c k : Nat) : Nat :=
  if 6 * b + k < s.imgH ∧ s.pixel (6 * b + k) c = pc then 2 ^ k else 0

/-- `mask(b, pc, c)` (R171). -/
def sixMask (s : State) (b pc c : Nat) : Nat :=
  maskBit s b pc c 0 + maskBit s b pc c 1 + maskBit s b pc c 2 +
  maskBit s b pc c 3 + maskBit s b pc c 4 + maskBit s b pc c 5

/-- `sixchar(b, pc, c)` (R171). -/
def sixChar (s : State) (b pc c : Nat) : Byte := BitVec.ofNat 8 (0x3F + sixMask s b pc c)

/-- An edge list (R172): positions and characters. -/
structure EdgeList where
  pos : List Nat
  val : List Byte
  deriving DecidableEq, Repr

/-- The scan's transient state (R48, R172): the carry and the edges found so far. -/
structure EdgeScan where
  carry : Byte
  pos : List Nat
  val : List Byte
  deriving DecidableEq, Repr

/-- One column of the scan (R172). -/
def scanColumn (ch : Nat → Byte) (c : Nat) (e : EdgeScan) : EdgeScan :=
  if ch c = e.carry then e
  else { carry := ch c, pos := e.pos ++ [c], val := e.val ++ [ch c] }

/-- The chunk that begins at column `c0`, of at most `k` columns (R172). -/
def scanChunk (ch : Nat → Byte) (k w c0 : Nat) (e : EdgeScan) : EdgeScan :=
  forUpTo (min (c0 + k) w - c0) (fun j => scanColumn ch (c0 + j)) e

/-- Every chunk, `c0 = 0, k, 2k, …` below `w` (R172). -/
def scanRow (ch : Nat → Byte) (k w : Nat) : EdgeScan :=
  forUpTo ((w + k - 1) / k) (fun i => scanChunk ch k w (i * k)) { carry := 0x00#8, pos := [], val := [] }

/-- `edges` (R172) over `w` columns of characters `ch` with `k` lanes: the scan and its sentinel. -/
def edges (ch : Nat → Byte) (k w : Nat) : EdgeList :=
  { pos := (scanRow ch k w).pos ++ [w], val := (scanRow ch k w).val }

/-- The engine's check of an edge list (R173). -/
abbrev EdgeList.consistent (w : Nat) (e : EdgeList) : Prop :=
  e.val.length + 1 = e.pos.length ∧ e.pos.getLast? = some w

/-- One run of `len` characters `v` (R174). -/
def runBytes (len : Nat) (v : Byte) : List Byte :=
  if len ≤ 3 then List.replicate len v else 0x21#8 :: (dec len ++ [v])

/-- `rle(pos, val)` (R174). -/
def rle : List Nat → List Byte → List Byte
  | p :: q :: ps, v :: vs => runBytes (q - p) v ++ rle (q :: ps) vs
  | _, _ => []

/-- `edges(b, pc)` (R172). -/
def bandEdges (s : State) (b pc : Nat) : EdgeList := edges (sixChar s b pc) (Params.lanes s.params) s.imgW

/-- `seg(b, pc)` (R175). -/
def segment (s : State) (b pc : Nat) : List Byte :=
  0x23#8 :: (dec pc ++ rle (bandEdges s b pc).pos (bandEdges s b pc).val ++
    [if pc < s.maxIndex then 0x24#8 else 0x2D#8])

/-- `band(b)` (R176). -/
def bandBytes (s : State) (b : Nat) : List Byte := (List.range (s.maxIndex + 1)).flatMap (segment s b)

/-- `frame()` (R177). -/
def frameBytes (s : State) : List Byte := (List.range s.numBands).flatMap (bandBytes s)

/-- Every edge list of the band passes its check (R173, R181). -/
abbrev bandConsistent (s : State) (b : Nat) : Prop :=
  ∀ pc ∈ List.range (s.maxIndex + 1), EdgeList.consistent s.imgW (bandEdges s b pc)

/-- The append of an encoder command's bytes (R178). -/
def appendOutput (s : State) (out : List Byte) : Except CmdError State :=
  if s.regs.outCap.toNat < s.regs.outLen.toNat + out.length then .error .outOverflow else
  .ok ((s.setMem (Memory.writeBytes s.mem (s.regs.outBase.toNat + s.regs.outLen.toNat) out)).setOutLen
    (BitVec.ofNat 32 (s.regs.outLen.toNat + out.length)))

/-- The region checks the appending commands share (R180 to R182). -/
def checkEncoder {α : Type} (s : State) (rest : Except CmdError α) : Except CmdError α :=
  if s.dbufRegion.overlaps s.outWindow then .error .config else
  if s.dbufRegion.passes s.memSize ∨ s.outWindow.passes s.memSize then .error .bus else rest

/-- SIXCHAR (R179). -/
def execSixchar (pc b : Nat) (s : State) : Host.Outcome State Fault Refusal :=
  finish s <|
    if s.maxIndex = 0 ∨ s.maxIndex < pc then .error .precond else
    if s.emptyImage then .error .config else
    if s.numBands ≤ b ∨ s.imgW ≤ s.regs.arg0.toNat then .error .config else
    if s.dbufRegion.passes s.memSize then .error .bus else
    .ok ((s.setResult0 (BitVec.setWidth 32 (sixChar s b pc s.regs.arg0.toNat))).setResult1
      (BitVec.ofNat 32 (sixMask s b pc s.regs.arg0.toNat)))

/-- ENCSEG (R180). -/
def execEncseg (pc b : Nat) (s : State) : Host.Outcome State Fault Refusal :=
  finish s <|
    if s.maxIndex = 0 ∨ s.maxIndex < pc then .error .precond else
    if s.emptyImage ∨ s.numBands ≤ b then .error .config else
    checkEncoder s <|
    if ¬ EdgeList.consistent s.imgW (bandEdges s b pc) then .error .internal else
    appendOutput s (segment s b pc)

/-- ENCBAND (R181). -/
def execEncband (b : Nat) (s : State) : Host.Outcome State Fault Refusal :=
  finish s <|
    if s.maxIndex = 0 then .error .precond else
    if s.emptyImage ∨ s.numBands ≤ b then .error .config else
    checkEncoder s <|
    if ¬ bandConsistent s b then .error .internal else
    appendOutput s (bandBytes s b)

/-- ENCFRAME (R182). -/
def execEncframe (s : State) : Host.Outcome State Fault Refusal :=
  finish s <|
    if s.maxIndex = 0 then .error .precond else
    if s.emptyImage then .error .config else
    checkEncoder s <|
    if ¬ ∀ b ∈ List.range s.numBands, bandConsistent s b then .error .internal else
    appendOutput s (frameBytes s)

end Sys2Proof.Machine
end

