-- ==== Sys2Proof/Machine/Quantizer.lean ====
section
/-! DEFINITION. The quantizer: its functions (R100 to R106), the palette tables (R43 to R46) and the scalar
commands QSELECT, LUMA, GRAYIDX, CUBEIDX, CDIST, QTRUNC and PALREAD (R111 to R117). -/
namespace Sys2Proof.Machine

/-- `select(x, n)` (R100, with the exact-half reading of C1). -/
def select (x n : Nat) : Nat := x / n + (if n ≤ 2 * (x % n) then 1 else 0)

/-- The error `x − select(x, n)·n` (R106, R111, R143). -/
def selectError (x n : Nat) : Int := (x : Int) - ((select x n * n : Nat) : Int)

/-- `luma(R, G, B)` (R101). -/
def luma (c : Rgb) : Nat := (13933 * c.r.toNat + 46871 * c.g.toNat + 4732 * c.b.toNat) / 65536

/-- The gray-ramp value `g_k` (R45). -/
def rampValue (k : Nat) : Nat := rhu (255 * k) 24

/-- The gray candidate of a luminance (R102): `(gsIndex, gval)`, or none. -/
def grayCandidate (top : GrayTop) (l : Nat) : Option (Nat × Nat) :=
  if (8 * l + 42) / 85 ≤ 23 then some (232 + (8 * l + 42) / 85, rampValue ((8 * l + 42) / 85))
  else match top with
    | .clamp => some (255, rampValue 23)
    | .cube => none

/-- `lvl(c)` (R103). -/
def cubeLevel (c : Byte) : Nat := (c.toNat + 25) / 51

/-- `cubeIndex(R, G, B)` (R103). -/
def cubeIndex (c : Rgb) : Nat := 16 + 36 * cubeLevel c.r + 6 * cubeLevel c.g + cubeLevel c.b

/-- `cubeColor(R, G, B)` (R103). -/
def cubeColor (c : Rgb) : Rgb :=
  { r := BitVec.ofNat 8 (51 * cubeLevel c.r)
    g := BitVec.ofNat 8 (51 * cubeLevel c.g)
    b := BitVec.ofNat 8 (51 * cubeLevel c.b) }

/-- The square of the distance of two components. -/
def sqDiff (a b : Byte) : Nat := (((a.toNat : Int) - (b.toNat : Int)) ^ 2).toNat

/-- `dist2` (R104). -/
def dist2 (c d : Rgb) : Nat := sqDiff c.r d.r + sqDiff c.g d.g + sqDiff c.b d.b

/-- The colour (v, v, v). -/
def grayColor (v : Nat) : Rgb := { r := BitVec.ofNat 8 v, g := BitVec.ofNat 8 v, b := BitVec.ofNat 8 v }

/-- `truncate(R, G, B)` (R105): the palette index and the distance of the chosen candidate. -/
def truncate (top : GrayTop) (c : Rgb) : Nat × Nat :=
  match grayCandidate top (luma c) with
  | none => (cubeIndex c, dist2 c (cubeColor c))
  | some (gi, gv) =>
    if dist2 c (grayColor gv) < dist2 c (cubeColor c) then (gi, dist2 c (grayColor gv))
    else (cubeIndex c, dist2 c (cubeColor c))

/-- The fixed 256-entry palette `PAL256[i]` (R43 to R45). -/
def pal256 (p : Params) (i : Nat) : Rgb :=
  if h : i < 16 then p.base16[i]
  else if i < 232 then
    { r := BitVec.ofNat 8 (51 * ((i - 16) / 36))
      g := BitVec.ofNat 8 (51 * ((i - 16) / 6 % 6))
      b := BitVec.ofNat 8 (51 * ((i - 16) % 6)) }
  else grayColor (rampValue (i - 232))

/-- `GRAYPCT(i, N)` (R46). -/
def grayPercent (i n : Nat) : Nat := rhu (100 * i) n

/-- QSELECT (R111). -/
def execQselect (s : State) : Host.Outcome State Fault Refusal :=
  finish s <|
    if s.divisor = 0 then .error .precond else
    .ok ((s.setResult0 (BitVec.ofNat 32 (select s.sample s.divisor))).setResult1
      (BitVec.ofInt 32 (selectError s.sample s.divisor)))

/-- LUMA (R112). -/
def execLuma (s : State) : Host.Outcome State Fault Refusal :=
  finish s <| .ok (s.setResult0 (BitVec.ofNat 32 (luma (rgbOf s.regs.arg0))))

/-- GRAYIDX (R113). -/
def execGrayidx (s : State) : Host.Outcome State Fault Refusal :=
  finish s <|
    match grayCandidate s.params.grayTop s.sample with
    | none => .ok ((s.setResult0 0x00000100#32).setResult1 0#32)
    | some (gi, gv) => .ok ((s.setResult0 (BitVec.ofNat 32 gi)).setResult1 (BitVec.ofNat 32 gv))

/-- CUBEIDX (R114). -/
def execCubeidx (s : State) : Host.Outcome State Fault Refusal :=
  finish s <|
    .ok ((s.setResult0 (BitVec.ofNat 32 (cubeIndex (rgbOf s.regs.arg0)))).setResult1
      (packRgb (cubeColor (rgbOf s.regs.arg0))))

/-- CDIST (R115). -/
def execCdist (s : State) : Host.Outcome State Fault Refusal :=
  finish s <| .ok (s.setResult0 (BitVec.ofNat 32 (dist2 (rgbOf s.regs.arg0) (rgbOf s.regs.arg1))))

/-- QTRUNC (R116). -/
def execQtrunc (s : State) : Host.Outcome State Fault Refusal :=
  finish s <|
    .ok ((s.setResult0 (BitVec.ofNat 32 (truncate s.params.grayTop (rgbOf s.regs.arg0)).1)).setResult1
      (BitVec.ofNat 32 (truncate s.params.grayTop (rgbOf s.regs.arg0)).2))

/-- PALREAD (R117). -/
def execPalread (s : State) : Host.Outcome State Fault Refusal :=
  finish s <|
    if s.regs.ctrl.palMode then .ok (s.setResult0 (packRgb (pal256 s.params s.sample)))
    else
      if s.maxIndex = 0 then .error .precond else
      if s.maxIndex < s.sample then .error .precond else
      .ok (s.setResult0 (BitVec.ofNat 32 (grayPercent s.sample s.maxIndex)))

end Sys2Proof.Machine
end

