-- ==== Sys2Proof/Machine/Dithering.lean ====
section
/-! DEFINITION. The dithering engine: LOADGRAY, MAP256 and DITHER (R140 to R151). -/
namespace Sys2Proof.Machine

/-- The checks LOADGRAY and MAP256 share after their format check (R141, R142). -/
def checkLoad {α : Type} (s : State) (rest : Except CmdError α) : Except CmdError α :=
  if s.emptyImage then .error .config else
  if s.srcRegion.overlaps s.dbufRegion then .error .config else
  if s.srcRegion.passes s.memSize ∨ s.dbufRegion.passes s.memSize then .error .bus else rest

/-- One pixel of LOADGRAY (R141). -/
def loadPixel (s : State) (r c : Nat) (m : Memory) : Memory :=
  Memory.write m (s.dbufAddr r c) (Memory.read m (s.srcAddr r c 0))

/-- LOADGRAY (R141). -/
def execLoadgray (s : State) : Host.Outcome State Fault Refusal :=
  finish s <|
    if ¬ s.gray8 then .error .format else
    checkLoad s <|
    .ok (s.setMem (forEachPixel s.imgH s.imgW (loadPixel s) s.mem))

/-- The colour of the source pixel (r, c) (R61, R142). -/
def sourceColor (s : State) (m : Memory) (r c : Nat) : Rgb :=
  { r := Memory.read m (s.srcAddr r c 0)
    g := Memory.read m (s.srcAddr r c 1)
    b := Memory.read m (s.srcAddr r c 2) }

/-- One pixel of MAP256 (R142). -/
def mapPixel (s : State) (r c : Nat) (m : Memory) : Memory :=
  Memory.write m (s.dbufAddr r c) (BitVec.ofNat 8 (truncate s.params.grayTop (sourceColor s m r c)).1)

/-- MAP256 (R142). -/
def execMap256 (s : State) : Host.Outcome State Fault Refusal :=
  finish s <|
    if ¬ s.rgb8 then .error .format else
    checkLoad s <|
    .ok (s.setMem (forEachPixel s.imgH s.imgW (mapPixel s) s.mem))

/-- `addsat(a, t)` (R146). -/
def addSat (m : Memory) (a : Nat) (t : Int) : Memory :=
  Memory.write m a (sat8 (((Memory.read m a).toNat : Int) + t))

/-- `addsat(a, t)` where the neighbour is inside the image; the term is discarded otherwise (R145). -/
def addSatIf (inside : Prop) [Decidable inside] (m : Memory) (a : Nat) (t : Int) : Memory :=
  if inside then addSat m a t else m

/-- The byte a visited pixel receives (R149). -/
def ditherOutput (dout : Bool) (q n : Nat) : Byte :=
  if dout then sat8 ((q * n : Nat) : Int) else BitVec.ofNat 8 q

/-- The four terms of one error applied to the pixel's neighbours (R144, R145, R146). -/
def diffuse (w h r c a : Nat) (err : Int) (m : Memory) : Memory :=
  let m1 := addSatIf (c + 1 < w) m (a + 1) (tdiv (err * 7) 16)
  let m2 := addSatIf (r + 1 < h ∧ 1 ≤ c) m1 (a + w - 1) (tdiv (err * 3) 16)
  let m3 := addSatIf (r + 1 < h) m2 (a + w) (tdiv (err * 5) 16)
  addSatIf (r + 1 < h ∧ c + 1 < w) m3 (a + w + 1) (tdiv (err * 1) 16)

/-- One pixel of DITHER (R143, R148). -/
def ditherPixel (s : State) (r c : Nat) (m : Memory) : Memory :=
  let a := s.dbufAddr r c
  let old := (Memory.read m a).toNat
  diffuse s.imgW s.imgH r c a (selectError old s.divisor)
    (Memory.write m a (ditherOutput s.regs.ctrl.dout (select old s.divisor) s.divisor))

/-- DITHER (R148), in the visiting order of R147. -/
def execDither (s : State) : Host.Outcome State Fault Refusal :=
  finish s <|
    if ¬ s.gray8 then .error .format else
    if s.divisor = 0 then .error .precond else
    if s.emptyImage then .error .config else
    if s.dbufRegion.passes s.memSize then .error .bus else
    .ok (s.setMem (forEachPixel s.imgH s.imgW (ditherPixel s) s.mem))

end Sys2Proof.Machine
end

