-- ==== Sys2Proof/Machine/Dispatch.lean ====
section
/-! DEFINITION. One arm per command of the opcode map (R83). -/
namespace Sys2Proof.Machine
open Sys2Proof

def exec (i : Instr) (s : State) : Host.Outcome State Fault Refusal :=
  match i with
  | .nop => Sys2Proof.Machine.execNop s
  | .qselect => Sys2Proof.Machine.execQselect s
  | .luma => Sys2Proof.Machine.execLuma s
  | .grayidx => Sys2Proof.Machine.execGrayidx s
  | .cubeidx => Sys2Proof.Machine.execCubeidx s
  | .cdist => Sys2Proof.Machine.execCdist s
  | .qtrunc => Sys2Proof.Machine.execQtrunc s
  | .palread => Sys2Proof.Machine.execPalread s
  | .loadgray => Sys2Proof.Machine.execLoadgray s
  | .map256 => Sys2Proof.Machine.execMap256 s
  | .dither => Sys2Proof.Machine.execDither s
  | .sixchar pc b => Sys2Proof.Machine.execSixchar pc b s
  | .encseg pc b => Sys2Proof.Machine.execEncseg pc b s
  | .encband b => Sys2Proof.Machine.execEncband b s
  | .encframe => Sys2Proof.Machine.execEncframe s

end Sys2Proof.Machine
end

