-- ==== Sys2Proof/Machine/HostPort.lean ====
section
/-! DEFINITION. What the host does to the block and to engine memory: register accesses (R20 to R40, R62,
R84, R254), memory accesses (R60, R67), and the resets (R250 to R252). -/
namespace Sys2Proof.Machine

/-- The nineteen registers (R20). -/
inductive Reg where
  | id | ctrl | status | cmd | format | width | height | stride | srcBase | dbufBase
  | outBase | outCap | outLen | qstep | ncols | arg0 | arg1 | result0 | result1
  deriving DecidableEq, Repr

/-- A register's offset in the block (R20). -/
def Reg.offset : Reg → Nat
  | .id => 0x00
  | .ctrl => 0x04
  | .status => 0x08
  | .cmd => 0x0C
  | .format => 0x10
  | .width => 0x14
  | .height => 0x18
  | .stride => 0x1C
  | .srcBase => 0x20
  | .dbufBase => 0x24
  | .outBase => 0x28
  | .outCap => 0x2C
  | .outLen => 0x30
  | .qstep => 0x34
  | .ncols => 0x38
  | .arg0 => 0x3C
  | .arg1 => 0x40
  | .result0 => 0x44
  | .result1 => 0x48

/-- The register at an offset of the block; none at a reserved or unaligned offset (R40, R62). -/
def regAt (off : Nat) : Option Reg :=
  match off with
  | 0x00 => some .id
  | 0x04 => some .ctrl
  | 0x08 => some .status
  | 0x0C => some .cmd
  | 0x10 => some .format
  | 0x14 => some .width
  | 0x18 => some .height
  | 0x1C => some .stride
  | 0x20 => some .srcBase
  | 0x24 => some .dbufBase
  | 0x28 => some .outBase
  | 0x2C => some .outCap
  | 0x30 => some .outLen
  | 0x34 => some .qstep
  | 0x38 => some .ncols
  | 0x3C => some .arg0
  | 0x40 => some .arg1
  | 0x44 => some .result0
  | 0x48 => some .result1
  | _ => none

/-- The offset in the block of a platform address, none outside the 256 bytes at REG_BASE (R20, R73). -/
def Params.blockOffset (p : Params) (addr : Nat) : Option Nat :=
  if Params.regBase p ≤ addr && addr < Params.regBase p + 256 then some (addr - Params.regBase p) else none

/-- The register an access reaches (R62, R40): only an aligned 32-bit one reaches any. -/
def accessedReg (width : AccessWidth) (off : Nat) : Option Reg :=
  match width with
  | .word => regAt off
  | .half => none
  | .byte => none

/-- The word a read of a register returns (R21 to R39); reserved fields read 0. -/
def State.readReg (s : State) : Reg → Word
  | .id => Config.idValue
  | .ctrl => s.regs.ctrl.word
  | .status => s.regs.status.word
  | .cmd => s.regs.cmd
  | .format => BitVec.ofNat 32 (s.regs.channels.toNat + s.regs.bits.toNat * 2 ^ 8)
  | .width => BitVec.setWidth 32 s.regs.width
  | .height => BitVec.setWidth 32 s.regs.height
  | .stride => s.regs.stride
  | .srcBase => s.regs.srcBase
  | .dbufBase => s.regs.dbufBase
  | .outBase => s.regs.outBase
  | .outCap => s.regs.outCap
  | .outLen => s.regs.outLen
  | .qstep => BitVec.setWidth 32 s.regs.qstep
  | .ncols => BitVec.setWidth 32 s.regs.ncols
  | .arg0 => s.regs.arg0
  | .arg1 => s.regs.arg1
  | .result0 => s.regs.result0
  | .result1 => s.regs.result1

/-- Whether the address lies in a region of the running command (R67): a word that does not decode uses none. -/
def State.inRunningRegion (s : State) (a : Nat) : Bool :=
  match decode s.regs.cmd with
  | .ok i => s.regs.status.busy && (s.regionsOf i).any (fun g => decide (g.contains a))
  | .error _ => false

/-- The bytes of a region of engine memory, each with its own free value of one draw (R251). -/
def Memory.fillFree (draw : Nat) (g : Region) (m : Memory) : Memory :=
  forUpTo (g.hi - g.lo) (fun i k => Memory.write k (g.lo + i) (Config.freeByte draw (g.lo + i))) m

/-- The bytes of engine memory that the command in flight could write (R251). -/
def State.abandonedRegion (s : State) : Region :=
  match decode s.regs.cmd with
  | .ok i => { lo := (s.writableOf i).lo, hi := min (s.writableOf i).hi s.memSize }
  | .error _ => { lo := 0, hi := 0 }

/-- A command in flight is abandoned (R251, R252): it sets no status, and every byte it could write takes
a free value. -/
def State.abandon (s : State) : State :=
  if s.regs.status.busy then
    { s with mem := Memory.fillFree s.draws s.abandonedRegion s.mem, draws := s.draws + 1 }
  else s

/-- The effect of a hard or a soft reset (R250 to R252): the command in flight abandoned, every register
at its reset value, engine memory otherwise and HOST_RACE unchanged. -/
def State.resetBlock (s : State) : State := { s.abandon with regs := Regs.reset }

/-- A host write to CTRL (R22, R251, R254). -/
def State.writeCtrl (s : State) (v : Word) : State :=
  if v[0] then s.resetBlock
  else { s with regs := { s.regs with ctrl := s.regs.ctrl.write s.regs.status.busy v } }

/-- A host write to a register that only stores a value, with BUSY = 0 (R25 to R37); read-only registers
and reserved fields ignore it. -/
def Regs.store (k : Regs) (reg : Reg) (v : Word) : Regs :=
  match reg with
  | .id | .ctrl | .status | .cmd | .result0 | .result1 => k
  | .format => { k with channels := BitVec.ofNat 8 (bitsOf v 7 0), bits := BitVec.ofNat 8 (bitsOf v 15 8) }
  | .width => { k with width := BitVec.ofNat 16 (bitsOf v 15 0) }
  | .height => { k with height := BitVec.ofNat 16 (bitsOf v 15 0) }
  | .stride => { k with stride := v }
  | .srcBase => { k with srcBase := v }
  | .dbufBase => { k with dbufBase := v }
  | .outBase => { k with outBase := v }
  | .outCap => { k with outCap := v }
  | .outLen => { k with outLen := v }
  | .qstep => { k with qstep := BitVec.ofNat 8 (bitsOf v 7 0) }
  | .ncols => { k with ncols := BitVec.ofNat 8 (bitsOf v 7 0) }
  | .arg0 => { k with arg0 := v }
  | .arg1 => { k with arg1 := v }

/-- A host write of a word to a register: CTRL and STATUS always take it, CMD offers a command, every other
register ignores it while BUSY (R84, R211, R254). -/
def State.writeReg (s : State) (reg : Reg) (v : Word) : State :=
  match reg with
  | .ctrl => s.writeCtrl v
  | .status => s.acknowledge v
  | .cmd => s.offerWord v
  | .id | .format | .width | .height | .stride | .srcBase | .dbufBase | .outBase | .outCap | .outLen
  | .qstep | .ncols | .arg0 | .arg1 | .result0 | .result1 =>
    if s.regs.status.busy then s else { s with regs := s.regs.store reg v }

/-- A host register write (R62): no effect unless it reaches a register. -/
def hostRegWrite (width : AccessWidth) (addr : Nat) (v : Word) (s : State) : Host.Outcome State Fault Refusal :=
  match Params.blockOffset s.params addr with
  | none => .fault (.hostOutsideBlock addr)
  | some off =>
    match accessedReg width off with
    | none => .next s
    | some reg => .next (s.writeReg reg v)

/-- A host register read (R62, R68): 0 unless it reaches a register; no side effect. -/
def hostRegRead (width : AccessWidth) (addr : Nat) (s : State) : Host.Outcome State Fault Refusal :=
  match Params.blockOffset s.params addr with
  | none => .fault (.hostOutsideBlock addr)
  | some off =>
    match accessedReg width off with
    | none => .next { s with hostData := 0#32 }
    | some reg => .next { s with hostData := s.readReg reg }

/-- A host write of one byte of engine memory (R67): one that races with the running command sets
HOST_RACE, and the spec does not say which byte the address then holds: a free value. -/
def hostMemWrite (addr : Nat) (v : Byte) (s : State) : Host.Outcome State Fault Refusal :=
  if s.memSize ≤ addr then .fault (.hostOutsideMemory addr)
  else if s.inRunningRegion addr then
    .next { s with mem := Memory.write s.mem addr (Config.freeByte s.draws addr), draws := s.draws + 1, hostRace := true }
  else .next (s.setMem (Memory.write s.mem addr v))

/-- A host read of one byte of engine memory (R67): one that races with the running command returns a
free value. -/
def hostMemRead (addr : Nat) (s : State) : Host.Outcome State Fault Refusal :=
  if s.memSize ≤ addr then .fault (.hostOutsideMemory addr)
  else if s.inRunningRegion addr then
    .next { s with hostData := BitVec.setWidth 32 (Config.freeByte s.draws addr), draws := s.draws + 1 }
  else .next { s with hostData := BitVec.setWidth 32 (s.byteAt addr) }

/-- The word the host takes the interrupt line's level for: 1 while it is raised, else 0 (R227, log 18). -/
def State.irqLevel (s : State) : Word := if s.irq then 1#32 else 0#32

/-- One host action. A `wait` ends with the read of STATUS that shows BUSY = 0 (R88). -/
def hostAct (x : HostAction) (s : State) : Host.Outcome State Fault Refusal :=
  match x with
  | .regWrite width addr v => hostRegWrite width addr v s
  | .regRead width addr => hostRegRead width addr s
  | .memWrite addr v => hostMemWrite addr v s
  | .memRead addr => hostMemRead addr s
  | .irqRead => .next { s with hostData := s.irqLevel }
  | .hardReset => .next s.resetBlock
  | .wait => .next { s with hostData := s.regs.status.word }

end Sys2Proof.Machine
end

