-- ==== Sys2Proof/Machine/Fetch.lean ====
section
/-! DEFINITION. Whose turn it is, and the command the engine takes from CMD (R24, R85, R259). -/
namespace Sys2Proof.Machine

/-- What the next step of the machine is. -/
inductive Turn where
  /-- The host acts; the list is what it does afterwards. -/
  | host (x : HostAction) (rest : List HostAction)
  /-- The engine runs a command. -/
  | command (i : Instr)
  /-- The engine finds the accepted word illegal. -/
  | illegal (e : DecodeError)
  /-- Nothing is left to do: the host has ended and BUSY = 0 (R230, R259). -/
  | idle
  deriving DecidableEq, Repr

/-- The host leaves the next move to the engine: it waits (R88) or has nothing left to do. -/
def State.hostYields (s : State) : Bool :=
  match s.host with
  | [] => true
  | .wait :: _ => true
  | .regWrite _ _ _ :: _ | .regRead _ _ :: _ | .memWrite _ _ :: _ | .memRead _ :: _ | .irqRead :: _
  | .hardReset :: _ => false

/-- The engine's turn (R85, R259): its step is enabled exactly when BUSY = 1, and it decodes CMD first. -/
def State.engineTurn (s : State) : Turn :=
  match decode s.regs.cmd with
  | .ok i => .command i
  | .error e => .illegal e

/-- Whose turn it is: the host's next action comes before the engine's step unless the host waits. -/
def State.turn (s : State) : Turn :=
  if s.regs.status.busy && s.hostYields then s.engineTurn
  else match s.host with
    | [] => .idle
    | x :: rest => .host x rest

/-- The state in which the host's actions stand back for the engine's next step. -/
def State.holdHost (s : State) : State :=
  if s.hostYields then s else { s with host := .wait :: s.host }

end Sys2Proof.Machine
end

