-- ==== Sys2Proof/Machine/Step.lean ====
section
/-! DEFINITION. One step of the machine: one host action or one engine step (R16, R259). -/
namespace Sys2Proof.Machine

/-- One step. An illegal word ends as R85 and R222 say; with nothing to do the block waits (R250). -/
def step (s : State) : Host.Outcome State Fault Refusal :=
  match s.turn with
  | .host x rest => hostAct x { s with host := rest }
  | .command i => exec i s
  | .illegal _ => .next (s.raiseError .illegalCmd)
  | .idle => .next s

/-- The word stands accepted in CMD (R84) and the engine moves next, so that the next step decodes and runs
exactly it. -/
def State.withFetchWord (s : State) (nbits w : Nat) : State :=
  s.holdHost.acceptWord (tableWord nbits w)

end Sys2Proof.Machine
end

