-- ==== Sys2Proof/Machine/HostProgram.lean ====
section
/-! DEFINITION. Host programs (R87) and their pseudo-instructions (R88), as the host actions they stand for. -/
namespace Sys2Proof.Machine

/-- One line of a host program (R87, R88). -/
inductive HostLine where
  | wr (reg : Reg) (v : Word)
  | rd (reg : Reg)
  | wm (addr : Nat) (vs : List Byte)
  | rm (addr : Nat) (n : Nat)
  | cmd (i : Instr)
  | wait
  | run (i : Instr)
  | ack
  | srst
  deriving DecidableEq, Repr

/-- A 32-bit write to a register by name. -/
def writeAction (p : Params) (reg : Reg) (v : Word) : HostAction :=
  .regWrite .word (Params.regBase p + reg.offset) v

/-- The bytes of `wm`, at rising addresses. -/
def writeActions : Nat → List Byte → List HostAction
  | _, [] => []
  | a, v :: vs => .memWrite a v :: writeActions (a + 1) vs

/-- What a line stands for (R87, R88). -/
def HostLine.actions (p : Params) : HostLine → List HostAction
  | .wr reg v => [writeAction p reg v]
  | .rd reg => [.regRead .word (Params.regBase p + reg.offset)]
  | .wm addr vs => writeActions addr vs
  | .rm addr n => (List.range n).map (fun k => .memRead (addr + k))
  | .cmd i => [writeAction p .cmd (encode i)]
  | .wait => [.wait]
  | .run i => [writeAction p .cmd (encode i), .wait]
  | .ack => [writeAction p .status 0x00000006#32]
  | .srst => [writeAction p .ctrl 0x00000001#32]

/-- The actions of a whole program. -/
def hostProgram (p : Params) (lines : List HostLine) : List HostAction := lines.flatMap (HostLine.actions p)

end Sys2Proof.Machine
end

