-- ==== Sys2Proof/Safety.lean ====
section
/-! DEFINITION. What counts as a good state and a good run, and the notions of the spec's derived properties
(R147, R183, R184) in the terms the statements use. -/
namespace Sys2Proof.Machine

/-- STATUS as R23 and R220 allow it: DONE and ERR not both 1, ERRCODE 0 exactly when ERR = 0, no reserved
code, a fatal code only with FATAL, and nothing but BUSY set while a command is in flight (R84). -/
def Status.legal (st : Status) : Bool :=
  !(st.done && st.err) &&
  (st.err == (st.errcode != 0#4)) &&
  decide (st.errcode.toNat ≤ 7) &&
  (!(st.errcode == 3#4 || st.errcode == 4#4) || st.fatal) &&
  (!st.busy || (!st.done && !st.err && !st.fatal))

/-- The invariant of the machine: engine memory in its canonical form within MEM_SIZE (R60), and a legal
STATUS (R23, R84, R222). -/
abbrev State.Inv (s : State) : Prop := Memory.wf s.memSize s.mem = true ∧ s.regs.status.legal = true

/-- The host has kept its duty so far (R67, R232). -/
abbrev State.dutyKept (s : State) : Prop := s.hostRace = false

/-- A good final state (R232, R259): the host's program has ended, no command is in flight, the duty was kept. -/
abbrev State.goodFinal (s : State) : Prop :=
  s.hostRace = false ∧ s.regs.status.busy = false ∧ s.host = []

/-- The state after a command that ended with error `e` (R221, R222), written out. -/
def errorState (s : State) (e : CmdError) : State :=
  { s with regs := { s.regs with
      status := { busy := false, done := false, err := true,
                  fatal := s.regs.status.fatal || (e == .precond || e == .internal), errcode := e.code } } }

/-- STATUS after a command that ended without error (R223), written out. -/
def doneStatus (s : State) : Status :=
  { busy := false, done := true, err := s.regs.status.err, fatal := s.regs.status.fatal,
    errcode := s.regs.status.errcode }

/-- The commands one after the other, each from the state the one before left. -/
def runCommands : List Instr → State → Host.Outcome State Fault Refusal
  | [], s => .next s
  | i :: is, s =>
    match exec i s with
    | .next t => runCommands is t
    | .fault f => .fault f
    | .refused r => .refused r

/-- LOADGRAY and MAP256 pass their checks after the format check (R141, R142). -/
abbrev State.loadReady (s : State) : Prop :=
  s.imgW ≠ 0 ∧ s.imgH ≠ 0 ∧ ¬ s.srcRegion.overlaps s.dbufRegion ∧
  s.srcRegion.hi ≤ s.memSize ∧ s.dbufRegion.hi ≤ s.memSize

/-- DITHER passes its checks (R148). -/
abbrev State.ditherReady (s : State) : Prop :=
  s.gray8 ∧ s.divisor ≠ 0 ∧ s.imgW ≠ 0 ∧ s.imgH ≠ 0 ∧ s.dbufRegion.hi ≤ s.memSize

/-- The checks of an appending encoder command but for its immediates and its length (R180 to R182). -/
abbrev State.encodeReady (s : State) : Prop :=
  s.maxIndex ≠ 0 ∧ s.imgW ≠ 0 ∧ s.imgH ≠ 0 ∧ ¬ s.dbufRegion.overlaps s.outWindow ∧
  s.dbufRegion.hi ≤ s.memSize ∧ s.outWindow.hi ≤ s.memSize

/-- The bytes fit what is left of the output window (R178). -/
abbrev State.fits (s : State) (out : List Byte) : Prop :=
  s.regs.outLen.toNat + out.length ≤ s.regs.outCap.toNat

/-- `t` is `s` after an encoder command that appended `out` (R178, R223): the bytes stand at
OUT_BASE + OUT_LEN, every other byte reads as before, OUT_LEN has grown, STATUS shows DONE, and nothing
else has changed. -/
def appended (s t : State) (out : List Byte) : Prop :=
  (∀ k, k < out.length →
    some (t.byteAt (s.regs.outBase.toNat + s.regs.outLen.toNat + k)) = out[k]?) ∧
  (∀ a, a < s.regs.outBase.toNat + s.regs.outLen.toNat ∨
      s.regs.outBase.toNat + s.regs.outLen.toNat + out.length ≤ a → t.byteAt a = s.byteAt a) ∧
  t.regs.outLen.toNat = s.regs.outLen.toNat + out.length ∧
  t = { s with mem := t.mem, regs := { s.regs with outLen := t.regs.outLen, status := doneStatus s } }

/-- The byte at `a` belongs to what the command in flight could write (R251): the working region for LOADGRAY,
MAP256 and DITHER, the rest of the output window for ENCSEG, ENCBAND and ENCFRAME. -/
def State.inFlightTarget (s : State) (a : Nat) : Prop :=
  s.regs.status.busy = true ∧ a < s.memSize ∧
  ((decode s.regs.cmd ∈ [.ok .loadgray, .ok .map256, .ok .dither] ∧
      s.regs.dbufBase.toNat ≤ a ∧ a < s.regs.dbufBase.toNat + s.imgW * s.imgH) ∨
   ((decode s.regs.cmd = .ok .encframe ∨ (∃ b, decode s.regs.cmd = .ok (.encband b)) ∨
        (∃ pc b, decode s.regs.cmd = .ok (.encseg pc b))) ∧
      s.regs.outBase.toNat + s.regs.outLen.toNat ≤ a ∧ a < s.regs.outBase.toNat + s.regs.outCap.toNat))

/-- The byte at `a` lies in a region of R63 that the command in flight uses (R67, log 14): the source region for LOADGRAY
and MAP256, the working region for every command but the scalar ones and NOP, the output window for ENCSEG, ENCBAND
and ENCFRAME. -/
def State.usedInFlight (s : State) (a : Nat) : Prop :=
  s.regs.status.busy = true ∧
  ((decode s.regs.cmd ∈ [.ok .loadgray, .ok .map256] ∧ s.regs.srcBase.toNat ≤ a ∧
      (a : Int) < s.regs.srcBase.toNat + ((s.imgH : Int) - 1) * s.regs.stride.toNat +
        (s.imgW : Int) * s.regs.channels.toNat) ∨
   ((decode s.regs.cmd ∈ [.ok .loadgray, .ok .map256, .ok .dither, .ok .encframe] ∨
        (∃ b, decode s.regs.cmd = .ok (.encband b)) ∨
        (∃ pc b, decode s.regs.cmd = .ok (.encseg pc b) ∨ decode s.regs.cmd = .ok (.sixchar pc b))) ∧
      s.regs.dbufBase.toNat ≤ a ∧ a < s.regs.dbufBase.toNat + s.imgW * s.imgH) ∨
   ((decode s.regs.cmd = .ok .encframe ∨ (∃ b, decode s.regs.cmd = .ok (.encband b)) ∨
        (∃ pc b, decode s.regs.cmd = .ok (.encseg pc b))) ∧
      s.regs.outBase.toNat ≤ a ∧ a < s.regs.outBase.toNat + s.regs.outCap.toNat))

/-- The value of pixel (r, c) when DITHER visits it, gathered from the errors of the pixels visited before
it in the order they are diffused (R144 to R147): first from above left, above and above right, last from
the left. `start` are the samples, `err` the errors of the visited pixels. -/
def gathered (start : Nat → Nat → Nat) (err : Nat → Nat → Int) (w r c : Nat) : Nat :=
  let x0 := start r c
  let x1 := if 1 ≤ r ∧ 1 ≤ c then (sat8 ((x0 : Int) + tdiv (err (r - 1) (c - 1) * 1) 16)).toNat else x0
  let x2 := if 1 ≤ r then (sat8 ((x1 : Int) + tdiv (err (r - 1) c * 5) 16)).toNat else x1
  let x3 := if 1 ≤ r ∧ c + 1 < w then (sat8 ((x2 : Int) + tdiv (err (r - 1) (c + 1) * 3) 16)).toNat else x2
  if 1 ≤ c then (sat8 ((x3 : Int) + tdiv (err r (c - 1) * 7) 16)).toNat else x3

/-- A decimal count at the head of run data, and what follows it. -/
def takeCount : Nat → List Byte → Nat × List Byte
  | n, [] => (n, [])
  | n, x :: xs =>
    if 0x30 ≤ x.toNat ∧ x.toNat ≤ 0x39 then takeCount (n * 10 + (x.toNat - 0x30)) xs else (n, x :: xs)

/-- The expansion of run data (R183): `"!" ++ dec(L) ++ V` to L times V, a literal byte to itself. The first
argument bounds the number of items read. -/
def expandRuns : Nat → List Byte → List Byte
  | 0, _ => []
  | _ + 1, [] => []
  | n + 1, x :: xs =>
    if x = 0x21#8 then
      match takeCount 0 xs with
      | (len, v :: rest) => List.replicate len v ++ expandRuns n rest
      | (_, []) => []
    else x :: expandRuns n xs

/-- The run lengths of an edge list (R174). -/
def runLengths (pos : List Nat) : List Nat := List.zipWith (fun p q => q - p) pos pos.tail

/-- `cost(L)` (R184). -/
def runCost (len : Nat) : Nat := if len ≤ 3 then len else 2 + (dec len).length

end Sys2Proof.Machine
end

