-- ==== Sys2Proof/Certificates/Slice0/Obligations.lean ====
section
/-! DEFINITION. The statements for the provers. -/
open Sys2Proof Sys2Proof.Machine

/-! ## The step, decoding and encoding -/

/-- R85, R259: with BUSY = 1 and the host not moving first, a step is the decoded command's meaning. -/
def Obligations.StepRunsDecodedCommand : Prop :=
  ∀ (s : State) (i : Instr), s.regs.status.busy = true → s.hostYields = true →
    decode s.regs.cmd = .ok i → step s = exec i s

/-- The fixed entry for a first instruction: the step after `withFetchWord` runs the command of the table word. -/
def Obligations.FetchWordRunsItsCommand : Prop :=
  ∀ (s : State) (nbits w : Nat) (i : Instr), decodeTableWord nbits w = some i →
    step (s.withFetchWord nbits w) = exec i (s.withFetchWord nbits w)

/-- R85, R222: an illegal accepted word completes with ILLEGAL_CMD, code 1, and nothing but STATUS changes. -/
def Obligations.StepRejectsIllegalWord : Prop :=
  ∀ (s : State) (e : DecodeError), s.regs.status.busy = true → s.hostYields = true →
    decode s.regs.cmd = .error e →
    step s = .next { s with regs := { s.regs with
      status := { busy := false, done := false, err := true, fatal := s.regs.status.fatal, errcode := 1#4 } } }

/-- R85: the illegal words are those with a reserved opcode or a non-zero must-be-zero field. -/
def Obligations.IllegalWordsOfTheOpcodeMap : Prop :=
  ∀ w : Word, (∃ e, decode w = .error e) ↔
    ((w &&& 0xFF#32) ∉ ([0x00#32, 0x01#32, 0x02#32, 0x03#32, 0x04#32, 0x05#32, 0x06#32, 0x07#32, 0x10#32, 0x11#32,
        0x12#32, 0x20#32, 0x21#32, 0x22#32, 0x23#32] : List Word)) ∨
    ((w &&& 0xFF#32) ∈ ([0x00#32, 0x01#32, 0x02#32, 0x03#32, 0x04#32, 0x05#32, 0x06#32, 0x07#32, 0x10#32, 0x11#32,
        0x12#32, 0x23#32] : List Word) ∧ w >>> 8 ≠ 0#32) ∨
    ((w &&& 0xFF#32) = 0x22#32 ∧ (w >>> 8) &&& 0xFF#32 ≠ 0#32)

/-- R80 to R83, R88: decoding the encoding of a well-formed command gives the command. -/
def Obligations.DecodeOfEncode : Prop :=
  ∀ i : Instr, i.wellFormed = true → decode (encode i) = .ok i

/-- R85, R88: a word that decodes is the one encoding of a well-formed command, so no bit of it is dropped. -/
def Obligations.EncodeOfDecode : Prop :=
  ∀ (w : Word) (i : Instr), decode w = .ok i → i.wellFormed = true ∧ encode i = w

/-- R88: words the spec writes out decode to the commands they stand for. -/
def Obligations.DecodesWordsOfTheSpec : Prop :=
  decode 0x00000000#32 = .ok .nop ∧ decode 0x00000006#32 = .ok .qtrunc ∧ decode 0x00000012#32 = .ok .dither ∧
  decode 0x00010A21#32 = .ok (.encseg 10 1) ∧ decode 0x00020022#32 = .ok (.encband 2) ∧
  decode 0x00000120#32 = .ok (.sixchar 1 0) ∧ decode 0x00000023#32 = .ok .encframe

/-- R16, R259, and the model's interleaving (log 1): the host acts in its order, a wait lets a busy engine move
first, and with nothing to do the block waits. An observation of the interrupt line returns its level (R16, R227) as
1 or 0 (log 18). -/
def Obligations.HostActsInOrder : Prop :=
  (∀ (s : State) (x : HostAction) (rest : List HostAction), s.host = x :: rest →
    (s.regs.status.busy = false ∨ x ≠ .wait) → step s = hostAct x { s with host := rest }) ∧
  (∀ s : State, s.host = [] → s.regs.status.busy = false → step s = .next s) ∧
  (∀ (s : State) (rest : List HostAction), s.host = .irqRead :: rest →
    step s = .next { s with host := rest, hostData :=
      if (s.regs.status.done ∧ s.regs.ctrl.ieDone) ∨ (s.regs.status.err ∧ s.regs.ctrl.ieErr) then 1#32 else 0#32 })

/-! ## Reset -/

/-- R20, R250: what register reads give after reset, and the interrupt line. -/
def Obligations.ResetRegisterValues : Prop :=
  (∀ reg : Reg, reg ≠ .id → reg ≠ .format → State.reset.readReg reg = 0#32) ∧
  State.reset.readReg .id = 0x53580007#32 ∧ State.reset.readReg .format = 0x00000801#32 ∧
  State.reset.irq = false ∧ State.reset.hostRace = false

/-- R250, R252: a hard reset puts every register at its reset value, leaves HOST_RACE, and leaves every byte of
memory but those an abandoned command could write. -/
def Obligations.HardResetEffect : Prop :=
  ∀ (s : State) (rest : List HostAction), s.host = .hardReset :: rest →
    ∃ t, step s = .next t ∧ t.regs = Regs.reset ∧ t.hostRace = s.hostRace ∧ t.params = s.params ∧
      t.host = rest ∧ (∀ a, ¬ s.inFlightTarget a → t.byteAt a = s.byteAt a)

/-- R251: a write of 1 to CTRL.SRST does the same, whatever the write's other bits. -/
def Obligations.SoftResetEffect : Prop :=
  ∀ (s : State) (v : Word) (rest : List HostAction),
    s.host = .regWrite .word (Params.regBase s.params + 0x04) v :: rest → v[0] = true →
    ∃ t, step s = .next t ∧ t.regs = Regs.reset ∧ t.hostRace = s.hostRace ∧ t.params = s.params ∧
      t.host = rest ∧ (∀ a, ¬ s.inFlightTarget a → t.byteAt a = s.byteAt a)

/-- The invariant holds at reset. -/
def Obligations.ResetSatisfiesInv : Prop := State.reset.Inv

/-- R23, R60, R84, R222: every step, of the host or the engine, keeps memory canonical and within MEM_SIZE,
STATUS legal, and the parameters (R7). -/
def Obligations.StepKeepsInv : Prop :=
  ∀ s t : State, s.Inv → step s = .next t → t.Inv ∧ t.params = s.params

/-! ## The host's register accesses -/

/-- R20 to R39, R62: an aligned 32-bit access at REG_BASE plus a register's offset reaches that register, and a read
returns the register's fields at their places, reserved bits 0. R88: a wait that ends returns the word of STATUS. -/
def Obligations.AccessReachesItsRegister : Prop :=
  ∀ (s : State) (v : Word) (rest : List HostAction) (k : Regs) (ctrlWord statusWord : Word), k = s.regs →
    ctrlWord = BitVec.ofNat 32 (2 * k.ctrl.ieDone.toNat + 4 * k.ctrl.ieErr.toNat + 8 * k.ctrl.dout.toNat +
      16 * k.ctrl.palMode.toNat) →
    statusWord = BitVec.ofNat 32 (k.status.busy.toNat + 2 * k.status.done.toNat + 4 * k.status.err.toNat +
      8 * k.status.fatal.toNat + 256 * k.status.errcode.toNat) →
    (∀ reg off word, (reg, off, word) ∈ ([
        (.id, 0x00, 0x53580007#32), (.ctrl, 0x04, ctrlWord), (.status, 0x08, statusWord), (.cmd, 0x0C, k.cmd),
        (.format, 0x10, BitVec.ofNat 32 (k.channels.toNat + 256 * k.bits.toNat)),
        (.width, 0x14, k.width.setWidth 32), (.height, 0x18, k.height.setWidth 32), (.stride, 0x1C, k.stride),
        (.srcBase, 0x20, k.srcBase), (.dbufBase, 0x24, k.dbufBase), (.outBase, 0x28, k.outBase),
        (.outCap, 0x2C, k.outCap), (.outLen, 0x30, k.outLen), (.qstep, 0x34, k.qstep.setWidth 32),
        (.ncols, 0x38, k.ncols.setWidth 32), (.arg0, 0x3C, k.arg0), (.arg1, 0x40, k.arg1),
        (.result0, 0x44, k.result0), (.result1, 0x48, k.result1)] : List (Reg × Nat × Word)) →
      (s.host = .regWrite .word (Params.regBase s.params + off) v :: rest →
        step s = .next (State.writeReg { s with host := rest } reg v)) ∧
      (s.host = .regRead .word (Params.regBase s.params + off) :: rest →
        step s = .next { s with host := rest, hostData := word })) ∧
    (s.host = .wait :: rest → s.regs.status.busy = false →
      step s = .next { s with host := rest, hostData := statusWord })

/-- R84: an offered word is accepted, or dropped while BUSY or FATAL. -/
def Obligations.OfferedWordAcceptedOrDropped : Prop :=
  ∀ (s : State) (v : Word) (rest : List HostAction),
    s.host = .regWrite .word (Params.regBase s.params + 0x0C) v :: rest →
    (s.regs.status.busy = true ∨ s.regs.status.fatal = true → step s = .next { s with host := rest }) ∧
    (s.regs.status.busy = false → s.regs.status.fatal = false →
      step s = .next { s with host := rest, regs := { s.regs with
        cmd := v
        status := { busy := true, done := false, err := false, fatal := false, errcode := 0#4 } } })

/-- R225: only a reset clears FATAL. -/
def Obligations.FatalClearedOnlyByReset : Prop :=
  ∀ s t : State, step s = .next t → s.regs.status.fatal = true →
    t.regs.status.fatal = true ∨ t.regs = Regs.reset

/-- R254: while BUSY a write reaches only CTRL.SRST, CTRL.IE_DONE, CTRL.IE_ERR and the W1C bits of STATUS. -/
def Obligations.RegisterWritesWhileBusy : Prop :=
  ∀ (s : State) (reg : Reg) (v : Word) (rest : List HostAction), s.regs.status.busy = true →
    s.host = .regWrite .word (Params.regBase s.params + reg.offset) v :: rest →
    (reg ≠ .ctrl → reg ≠ .status → step s = .next { s with host := rest }) ∧
    (reg = .ctrl → v[0] = false →
      step s = .next { s with host := rest, regs := { s.regs with
        ctrl := { s.regs.ctrl with ieDone := v[1], ieErr := v[2] } } }) ∧
    (reg = .ctrl → v[0] = true → ∃ t, step s = .next t ∧ t.regs = Regs.reset) ∧
    (reg = .status →
      step s = .next { s with host := rest, regs := { s.regs with status := { s.regs.status with
        done := s.regs.status.done && !v[1]
        err := s.regs.status.err && !v[2]
        errcode := if v[2] then 0#4 else s.regs.status.errcode } } })

/-- R23, R226: a write to STATUS clears DONE by its bit 1, and ERR with ERRCODE by its bit 2, whatever BUSY is, and
nothing else; acknowledging with 0x00000006 (R88) clears all three and lowers the interrupt line. -/
def Obligations.AcknowledgeClearsStatus : Prop :=
  ∀ (s : State) (v : Word) (rest : List HostAction),
    s.host = .regWrite .word (Params.regBase s.params + 0x08) v :: rest →
    (step s = .next { s with host := rest, regs := { s.regs with status := { s.regs.status with
        done := if v[1] then false else s.regs.status.done
        err := if v[2] then false else s.regs.status.err
        errcode := if v[2] then 0#4 else s.regs.status.errcode } } }) ∧
    (v = 0x00000006#32 → ∃ t, step s = .next t ∧ t.irq = false ∧
      t = { s with host := rest, regs := { s.regs with status := { s.regs.status with
        done := false, err := false, errcode := 0#4 } } })

/-- R40, R62: a host access that is narrower than 32 bits, or not 4-byte aligned, or at offsets 0x4C to 0xFC,
writes nothing and reads 0. -/
def Obligations.AccessesWithoutEffect : Prop :=
  ∀ (s : State) (width : AccessWidth) (off : Nat) (v : Word) (rest : List HostAction), off < 256 →
    width ≠ .word ∨ off % 4 ≠ 0 ∨ 0x4C ≤ off →
    (s.host = .regWrite width (Params.regBase s.params + off) v :: rest → step s = .next { s with host := rest }) ∧
    (s.host = .regRead width (Params.regBase s.params + off) :: rest →
      step s = .next { s with host := rest, hostData := 0#32 })

/-- R20, R22, R25 to R39: with BUSY = 0 a write to a read-write register changes that register alone, which reads back
what was written but for its reserved bits, and a read-only register ignores the write. -/
def Obligations.WrittenRegisterReadsBack : Prop :=
  ∀ (s : State) (reg : Reg) (v : Word), s.regs.status.busy = false →
    (reg ∈ [Reg.stride, .srcBase, .dbufBase, .outBase, .outCap, .outLen, .arg0, .arg1] →
      (s.writeReg reg v).readReg reg = v) ∧
    (reg ∈ [Reg.format, .width, .height] → (s.writeReg reg v).readReg reg = v &&& 0x0000FFFF#32) ∧
    (reg ∈ [Reg.qstep, .ncols] → (s.writeReg reg v).readReg reg = v &&& 0x000000FF#32) ∧
    (reg = .ctrl → v[0] = false → (s.writeReg reg v).readReg reg = v &&& 0x0000001E#32 ∧
      s.writeReg reg v = { s with regs := { s.regs with
        ctrl := { ieDone := v[1], ieErr := v[2], dout := v[3], palMode := v[4] } } }) ∧
    (∀ k : Regs, (reg, k) ∈ ([
        (.format, { s.regs with channels := v.setWidth 8, bits := (v >>> 8).setWidth 8 }),
        (.width, { s.regs with width := v.setWidth 16 }), (.height, { s.regs with height := v.setWidth 16 }),
        (.stride, { s.regs with stride := v }), (.srcBase, { s.regs with srcBase := v }),
        (.dbufBase, { s.regs with dbufBase := v }), (.outBase, { s.regs with outBase := v }),
        (.outCap, { s.regs with outCap := v }), (.outLen, { s.regs with outLen := v }),
        (.qstep, { s.regs with qstep := v.setWidth 8 }), (.ncols, { s.regs with ncols := v.setWidth 8 }),
        (.arg0, { s.regs with arg0 := v }), (.arg1, { s.regs with arg1 := v })] : List (Reg × Regs)) →
      s.writeReg reg v = { s with regs := k }) ∧
    (reg ∈ [Reg.id, .result0, .result1] → s.writeReg reg v = s)

/-! ## The host's memory accesses -/

/-- R63, R67, R232: a host write outside the running command's regions takes effect at once; one inside sets HOST_RACE,
and only that byte is touched. -/
def Obligations.HostMemoryWrite : Prop :=
  ∀ (s : State) (a : Nat) (v : Byte) (rest : List HostAction), s.host = .memWrite a v :: rest → a < s.memSize →
    (¬ s.usedInFlight a →
      ∃ t, step s = .next t ∧ t.byteAt a = v ∧ (∀ b, b ≠ a → t.byteAt b = s.byteAt b) ∧
        t = { s with host := rest, mem := t.mem }) ∧
    (s.usedInFlight a →
      ∃ t, step s = .next t ∧ (∀ b, b ≠ a → t.byteAt b = s.byteAt b) ∧
        t = { s with host := rest, mem := t.mem, draws := t.draws, hostRace := true })

/-- R63, R67, R68: a host read outside the running command's regions returns the byte; one inside returns a byte the
rule leaves free; neither changes anything else the spec gives the machine. -/
def Obligations.HostMemoryRead : Prop :=
  ∀ (s : State) (a : Nat) (rest : List HostAction), s.host = .memRead a :: rest → a < s.memSize →
    (¬ s.usedInFlight a → step s = .next { s with host := rest, hostData := (s.byteAt a).setWidth 32 }) ∧
    (s.usedInFlight a → ∃ (x : Byte) (d : Nat),
      step s = .next { s with host := rest, hostData := x.setWidth 32, draws := d })

/-- R232: no step clears HOST_RACE, not even a reset, and only a racing host write sets it. -/
def Obligations.HostRaceSetOnlyByRacingWrite : Prop :=
  ∀ s t : State, step s = .next t →
    (s.hostRace = true → t.hostRace = true) ∧
    (t.hostRace = true → s.hostRace = true ∨ ∃ a v rest, s.host = .memWrite a v :: rest ∧ s.usedInFlight a)

/-! ## Completion, errors and the interrupt line -/

/-- R222, R223: what completion does to STATUS, with and without an error, and that it does nothing else; the codes of
the errors are those of R220. -/
def Obligations.CompletionStatus : Prop :=
  (∀ (s : State) (e : CmdError), s.raiseError e = { s with regs := { s.regs with status :=
    { busy := false, done := false, err := true, errcode := e.code,
      fatal := if e.code = 3#4 ∨ e.code = 4#4 then true else s.regs.status.fatal } } }) ∧
  (∀ s : State, s.complete = { s with regs := { s.regs with status :=
    { s.regs.status with busy := false, done := true } } }) ∧
  [CmdError.illegalCmd, .format, .precond, .internal, .outOverflow, .bus, .config].map CmdError.code =
    [1#4, 2#4, 3#4, 4#4, 5#4, 6#4, 7#4] ∧
  (∀ (s : State) (e : CmdError), errorState s e = s.raiseError e)

/-- R227: when the interrupt line is raised and lowered. -/
def Obligations.InterruptLine : Prop :=
  ∀ s : State,
    (s.irq = true ↔ (s.regs.status.done = true ∧ s.regs.ctrl.ieDone = true) ∨
      (s.regs.status.err = true ∧ s.regs.ctrl.ieErr = true)) ∧
    (∀ e, (s.raiseError e).irq = s.regs.ctrl.ieErr) ∧
    (s.regs.status.err = false → s.complete.irq = s.regs.ctrl.ieDone) ∧
    (∀ w, (s.acceptWord w).irq = false) ∧ s.resetBlock.irq = false

/-- R221, R222, R223: every command ends, either with an error, after which nothing but STATUS has changed, or
without one, after which STATUS shows it and, of the registers, at most RESULT0, RESULT1 and OUT_LEN are new. -/
def Obligations.CommandsEndPrecisely : Prop :=
  ∀ (i : Instr) (s : State),
    (∃ e, exec i s = .next (errorState s e)) ∨
    (∃ t, exec i s = .next t ∧ t = { s with mem := t.mem, regs := { s.regs with
      status := doneStatus s, result0 := t.regs.result0, result1 := t.regs.result1, outLen := t.regs.outLen } })

/-- R231: no command raises INTERNAL, from any state. -/
def Obligations.InternalNeverRaised : Prop :=
  ∀ (i : Instr) (s : State), exec i s ≠ .next (errorState s .internal)

/-! ## Control and scalar commands -/

/-- R210: NOP is the word 0, any other word with its opcode is illegal, and it changes STATUS only. -/
def Obligations.NopCompletes : Prop :=
  encode .nop = 0x00000000#32 ∧
  (∀ w : Word, w &&& 0xFF#32 = 0#32 → w ≠ 0#32 → ∃ e, decode w = .error e) ∧
  ∀ s : State, exec .nop s = .next { s with regs := { s.regs with status := doneStatus s } }

/-- R111: QSELECT. -/
def Obligations.QselectResult : Prop :=
  encode .qselect = 0x00000001#32 ∧
  ∀ s : State,
    (s.regs.qstep = 0#8 → exec .qselect s = .next (errorState s .precond)) ∧
    (s.regs.qstep ≠ 0#8 →
      exec .qselect s = .next { s with regs := { s.regs with
        result0 := BitVec.ofNat 32 (select (s.regs.arg0.toNat % 256) s.regs.qstep.toNat)
        result1 := BitVec.ofInt 32 (((s.regs.arg0.toNat % 256 : Nat) : Int) -
          (select (s.regs.arg0.toNat % 256) s.regs.qstep.toNat : Int) * (s.regs.qstep.toNat : Int))
        status := doneStatus s } })

/-- R100: select is the floor quotient, rounded up from the exact half on. -/
def Obligations.SelectRoundsHalfUp : Prop :=
  ∀ x n : Nat, x ≤ 255 → 1 ≤ n → n ≤ 255 →
    (2 * (x % n) < n → select x n = x / n) ∧ (n ≤ 2 * (x % n) → select x n = x / n + 1) ∧
    select x n ≤ 255 ∧ (2 ≤ n → select x n ≤ 128) ∧ select x n * n ≤ 340

/-- R106: the quantization error is at most half the divisor. -/
def Obligations.QuantizerErrorBound : Prop :=
  ∀ x n : Nat, x ≤ 255 → 1 ≤ n → n ≤ 255 →
    2 * (selectError x n).natAbs ≤ n ∧ -127 ≤ selectError x n ∧ selectError x n ≤ 127

/-- R101, R112: LUMA. -/
def Obligations.LumaResult : Prop :=
  encode .luma = 0x00000002#32 ∧
  (∀ s : State, exec .luma s = .next { s with regs := { s.regs with
    result0 := BitVec.ofNat 32 ((13933 * (s.regs.arg0.toNat / 65536 % 256) + 46871 * (s.regs.arg0.toNat / 256 % 256) +
      4732 * (s.regs.arg0.toNat % 256)) / 65536)
    status := doneStatus s } }) ∧
  (∀ v : Byte, luma { r := v, g := v, b := v } = v.toNat)

/-- R102, R113: GRAYIDX, under both values of GRAY_TOP. -/
def Obligations.GrayidxResult : Prop :=
  encode .grayidx = 0x00000003#32 ∧
  ∀ (s : State) (k : Nat), k = (8 * (s.regs.arg0.toNat % 256) + 42) / 85 →
    (k ≤ 23 → exec .grayidx s = .next { s with regs := { s.regs with
      result0 := BitVec.ofNat 32 (232 + k), result1 := BitVec.ofNat 32 (rhu (255 * k) 24), status := doneStatus s } }) ∧
    (24 ≤ k → s.params.grayTop = .clamp → exec .grayidx s = .next { s with regs := { s.regs with
      result0 := 255#32, result1 := 244#32, status := doneStatus s } }) ∧
    (24 ≤ k → s.params.grayTop = .cube → exec .grayidx s = .next { s with regs := { s.regs with
      result0 := 0x100#32, result1 := 0#32, status := doneStatus s } })

/-- R102: the gray candidate is a ramp entry, with its value, nearest to the luminance. -/
def Obligations.GrayCandidateIsNearest : Prop :=
  ∀ (top : GrayTop) (l gi gv : Nat), l ≤ 255 → grayCandidate top l = some (gi, gv) →
    (∃ k, k ≤ 23 ∧ gi = 232 + k ∧ gv = rampValue k) ∧
    ∀ k, k ≤ 23 → ((gv : Int) - l).natAbs ≤ ((rampValue k : Int) - l).natAbs

/-- R103, R114: CUBEIDX. -/
def Obligations.CubeidxResult : Prop :=
  encode .cubeidx = 0x00000004#32 ∧
  ∀ (s : State) (rr gr br : Nat), rr = (s.regs.arg0.toNat / 65536 % 256 + 25) / 51 →
    gr = (s.regs.arg0.toNat / 256 % 256 + 25) / 51 → br = (s.regs.arg0.toNat % 256 + 25) / 51 →
    exec .cubeidx s = .next { s with regs := { s.regs with
      result0 := BitVec.ofNat 32 (16 + 36 * rr + 6 * gr + br)
      result1 := BitVec.ofNat 32 (51 * rr * 65536 + 51 * gr * 256 + 51 * br)
      status := doneStatus s } }

/-- R104, R115: CDIST. -/
def Obligations.CdistResult : Prop :=
  encode .cdist = 0x00000005#32 ∧
  ∀ (s : State) (r1 g1 b1 r2 g2 b2 : Nat),
    r1 = s.regs.arg0.toNat / 65536 % 256 → g1 = s.regs.arg0.toNat / 256 % 256 → b1 = s.regs.arg0.toNat % 256 →
    r2 = s.regs.arg1.toNat / 65536 % 256 → g2 = s.regs.arg1.toNat / 256 % 256 → b2 = s.regs.arg1.toNat % 256 →
    exec .cdist s = .next { s with regs := { s.regs with
      result0 := BitVec.ofInt 32 (((r1 : Int) - r2) ^ 2 + ((g1 : Int) - g2) ^ 2 + ((b1 : Int) - b2) ^ 2)
      status := doneStatus s } }

/-- R105, R116: QTRUNC takes the gray candidate only where it is strictly nearer. -/
def Obligations.QtruncResult : Prop :=
  encode .qtrunc = 0x00000006#32 ∧
  ∀ (s : State) (c : Rgb), c = rgbOf s.regs.arg0 →
    (∀ gi gv, grayCandidate s.params.grayTop (luma c) = some (gi, gv) →
      dist2 c (grayColor gv) < dist2 c (cubeColor c) →
      exec .qtrunc s = .next { s with regs := { s.regs with
        result0 := BitVec.ofNat 32 gi, result1 := BitVec.ofNat 32 (dist2 c (grayColor gv)), status := doneStatus s } }) ∧
    ((∀ gi gv, grayCandidate s.params.grayTop (luma c) = some (gi, gv) →
        dist2 c (cubeColor c) ≤ dist2 c (grayColor gv)) →
      exec .qtrunc s = .next { s with regs := { s.regs with
        result0 := BitVec.ofNat 32 (cubeIndex c), result1 := BitVec.ofNat 32 (dist2 c (cubeColor c)),
        status := doneStatus s } })

/-- R103, R105: the index QTRUNC gives is never a base colour, its palette colour is at the distance given, and
neither candidate is nearer. -/
def Obligations.QtruncChoosesNearestCandidate : Prop :=
  ∀ s : State, ∃ t, exec .qtrunc s = .next t ∧
    16 ≤ t.regs.result0.toNat ∧ t.regs.result0.toNat ≤ 255 ∧
    t.regs.result1.toNat = dist2 (rgbOf s.regs.arg0) (pal256 s.params t.regs.result0.toNat) ∧
    t.regs.result1.toNat ≤ dist2 (rgbOf s.regs.arg0) (cubeColor (rgbOf s.regs.arg0)) ∧
    ∀ gi gv, grayCandidate s.params.grayTop (luma (rgbOf s.regs.arg0)) = some (gi, gv) →
      t.regs.result1.toNat ≤ dist2 (rgbOf s.regs.arg0) (grayColor gv)

/-- R117: PALREAD in both modes, with its errors. -/
def Obligations.PalreadResult : Prop :=
  encode .palread = 0x00000007#32 ∧
  ∀ (s : State) (i n : Nat), i = s.regs.arg0.toNat % 256 → n = s.regs.ncols.toNat →
    (s.regs.ctrl.palMode = true → exec .palread s = .next { s with regs := { s.regs with
      result0 := BitVec.ofNat 32 ((pal256 s.params i).r.toNat * 65536 + (pal256 s.params i).g.toNat * 256 +
        (pal256 s.params i).b.toNat)
      status := doneStatus s } }) ∧
    (s.regs.ctrl.palMode = false → n = 0 ∨ n < i → exec .palread s = .next (errorState s .precond)) ∧
    (s.regs.ctrl.palMode = false → n ≠ 0 → i ≤ n → exec .palread s = .next { s with regs := { s.regs with
      result0 := BitVec.ofNat 32 ((2 * (100 * i) + n) / (2 * n)), status := doneStatus s } })

/-- R43, R44, R45: the three ranges of the fixed palette, that truncate gives no base colour, and that no command but
PALREAD reads the base colours. -/
def Obligations.FixedPaletteEntries : Prop :=
  (∀ p : Params,
    (∀ i : Fin 16, pal256 p i = p.base16[i]) ∧
    (∀ r g b : Nat, r ≤ 5 → g ≤ 5 → b ≤ 5 → pal256 p (16 + 36 * r + 6 * g + b) =
      { r := BitVec.ofNat 8 (51 * r), g := BitVec.ofNat 8 (51 * g), b := BitVec.ofNat 8 (51 * b) }) ∧
    ((List.range 24).map (fun k => pal256 p (232 + k)) =
      [0, 11, 21, 32, 43, 53, 64, 74, 85, 96, 106, 117, 128, 138, 149, 159, 170, 181, 191, 202, 213, 223, 234, 244].map
        grayColor)) ∧
  (∀ (top : GrayTop) (c : Rgb), 16 ≤ (truncate top c).1 ∧ (truncate top c).1 ≤ 255) ∧
  (∀ (i : Instr) (s t : State) (colours : Vector Rgb 16), i ≠ .palread → exec i s = .next t →
    exec i { s with params := { s.params with base16 := colours } } =
      .next { t with params := { t.params with base16 := colours } })

/-! ## The working buffer -/

/-- R141: LOADGRAY copies every pixel and leaves every byte outside the working region. -/
def Obligations.LoadgrayCopiesImage : Prop :=
  ∀ s : State, s.gray8 → s.loadReady →
    ∃ t, exec .loadgray s = .next t ∧
      (∀ r c, r < s.imgH → c < s.imgW →
        t.byteAt (s.regs.dbufBase.toNat + r * s.imgW + c) =
          s.byteAt (s.regs.srcBase.toNat + r * s.regs.stride.toNat + c)) ∧
      (∀ a, a < s.regs.dbufBase.toNat ∨ s.regs.dbufBase.toNat + s.imgW * s.imgH ≤ a → t.byteAt a = s.byteAt a) ∧
      t = { s with mem := t.mem, regs := { s.regs with status := doneStatus s } }

/-- R142: MAP256 truncates every pixel and leaves every byte outside the working region. -/
def Obligations.Map256TruncatesImage : Prop :=
  ∀ s : State, s.rgb8 → s.loadReady →
    ∃ t, exec .map256 s = .next t ∧
      (∀ r c a, r < s.imgH → c < s.imgW → a = s.regs.srcBase.toNat + r * s.regs.stride.toNat + 3 * c →
        (t.byteAt (s.regs.dbufBase.toNat + r * s.imgW + c)).toNat =
          (truncate s.params.grayTop { r := s.byteAt a, g := s.byteAt (a + 1), b := s.byteAt (a + 2) }).1) ∧
      (∀ a, a < s.regs.dbufBase.toNat ∨ s.regs.dbufBase.toNat + s.imgW * s.imgH ≤ a → t.byteAt a = s.byteAt a) ∧
      t = { s with mem := t.mem, regs := { s.regs with status := doneStatus s } }

/-- R64, R65, R141, R142, R224: where LOADGRAY and MAP256 end with an error, in their order. -/
def Obligations.LoadErrors : Prop :=
  ∀ s : State,
    (¬ (s.regs.channels = 1#8 ∧ s.regs.bits = 8#8) → exec .loadgray s = .next (errorState s .format)) ∧
    (¬ (s.regs.channels = 3#8 ∧ s.regs.bits = 8#8) → exec .map256 s = .next (errorState s .format)) ∧
    (∀ i, (i = .loadgray ∧ s.gray8) ∨ (i = .map256 ∧ s.rgb8) →
      (s.imgW = 0 ∨ s.imgH = 0 ∨ s.srcRegion.overlaps s.dbufRegion → exec i s = .next (errorState s .config)) ∧
      (s.imgW ≠ 0 → s.imgH ≠ 0 → ¬ s.srcRegion.overlaps s.dbufRegion →
        s.memSize < s.regs.srcBase.toNat + (s.imgH - 1) * s.regs.stride.toNat + s.imgW * s.regs.channels.toNat ∨
        s.memSize < s.regs.dbufBase.toNat + s.imgW * s.imgH →
        exec i s = .next (errorState s .bus)))

/-- R143 to R149: DITHER is error diffusion. Every pixel, when visited, holds its sample with the errors of the
pixels visited before it gathered in raster order, and ends as the output of that value's quantization; every byte
outside the working region is unchanged. -/
def Obligations.DitherDiffusesErrors : Prop :=
  ∀ s : State, s.ditherReady →
    ∃ t, exec .dither s = .next t ∧
      (∃ old : Nat → Nat → Nat,
        (∀ r c, r < s.imgH → c < s.imgW →
          old r c = gathered s.pixel (fun i j => selectError (old i j) s.divisor) s.imgW r c) ∧
        (∀ r c, r < s.imgH → c < s.imgW →
          t.byteAt (s.dbufAddr r c) = if s.regs.ctrl.dout then sat8 ((select (old r c) s.divisor * s.divisor : Nat) : Int)
            else BitVec.ofNat 8 (select (old r c) s.divisor))) ∧
      (∀ a, a < s.regs.dbufBase.toNat ∨ s.regs.dbufBase.toNat + s.imgW * s.imgH ≤ a → t.byteAt a = s.byteAt a) ∧
      t = { s with mem := t.mem, regs := { s.regs with status := doneStatus s } }

/-- R148, R224: where DITHER ends with an error, in its order. -/
def Obligations.DitherErrors : Prop :=
  ∀ s : State,
    (¬ s.gray8 → exec .dither s = .next (errorState s .format)) ∧
    (s.gray8 → s.regs.qstep = 0#8 → exec .dither s = .next (errorState s .precond)) ∧
    (s.gray8 → s.regs.qstep ≠ 0#8 → s.imgW = 0 ∨ s.imgH = 0 → exec .dither s = .next (errorState s .config)) ∧
    (s.gray8 → s.regs.qstep ≠ 0#8 → s.imgW ≠ 0 → s.imgH ≠ 0 →
      s.memSize < s.regs.dbufBase.toNat + s.imgW * s.imgH → exec .dither s = .next (errorState s .bus))

/-- R151: the values DITHER leaves in the working buffer. -/
def Obligations.DitherOutputRange : Prop :=
  ∀ s : State, s.ditherReady →
    ∃ t, exec .dither s = .next t ∧ ∀ r c, r < s.imgH → c < s.imgW →
      (s.regs.ctrl.dout = false →
        (∃ v, v ≤ 255 ∧ (t.byteAt (s.dbufAddr r c)).toNat = select v s.divisor) ∧
        (2 ≤ s.divisor → (t.byteAt (s.dbufAddr r c)).toNat ≤ 128) ∧
        (s.divisor = 255 → (t.byteAt (s.dbufAddr r c)).toNat ≤ 1)) ∧
      (s.regs.ctrl.dout = true →
        s.divisor ∣ (t.byteAt (s.dbufAddr r c)).toNat ∨ (t.byteAt (s.dbufAddr r c)).toNat = 255)

/-- R148: with QSTEP = 1 DITHER leaves every byte as it was. -/
def Obligations.DitherByOneIsIdentity : Prop :=
  ∀ s : State, s.ditherReady → s.regs.qstep = 1#8 →
    ∃ t, exec .dither s = .next t ∧ ∀ a, t.byteAt a = s.byteAt a

/-- R144, R150: the four terms of an error lose at most 3 of it and never change its sign. -/
def Obligations.DiffusedTermsLoseAtMostThree : Prop :=
  ∀ err sum : Int, -127 ≤ err → err ≤ 127 →
    sum = tdiv (err * 7) 16 + tdiv (err * 3) 16 + tdiv (err * 5) 16 + tdiv (err * 1) 16 →
    sum.natAbs ≤ err.natAbs ∧ err.natAbs ≤ sum.natAbs + 3 ∧ (sum = 0 ∨ sum.sign = err.sign)

/-! ## The band encoder -/

/-- R171, R179: SIXCHAR packs the six rows of its column. -/
def Obligations.SixcharResult : Prop :=
  ∀ (s : State) (pc b m : Nat), s.maxIndex ≠ 0 → pc ≤ s.maxIndex → s.imgW ≠ 0 → s.imgH ≠ 0 →
    b < (s.imgH + 5) / 6 → s.regs.arg0.toNat < s.imgW → s.dbufRegion.hi ≤ s.memSize →
    m = ((List.range 6).map fun k =>
      if 6 * b + k < s.imgH ∧
        (s.byteAt (s.regs.dbufBase.toNat + (6 * b + k) * s.imgW + s.regs.arg0.toNat)).toNat = pc
      then 2 ^ k else 0).sum →
    exec (.sixchar pc b) s = .next { s with regs := { s.regs with
      result0 := BitVec.ofNat 32 (0x3F + m), result1 := BitVec.ofNat 32 m, status := doneStatus s } }

/-- R174, R175, R178, R180: ENCSEG appends its segment; a run of up to 3 is literal and a longer one counted (R174),
and a number is written in its decimal digits without leading zeros (R11). -/
def Obligations.EncsegAppendsSegment : Prop :=
  (∀ (s : State) (pc b : Nat), s.encodeReady → pc ≤ s.maxIndex → b < s.numBands → s.fits (segment s b pc) →
    (∃ t, exec (.encseg pc b) s = .next t ∧ appended s t (segment s b pc)) ∧
    segment s b pc = [0x23#8] ++ dec pc ++ rle (bandEdges s b pc).pos (bandEdges s b pc).val ++
      [if pc < s.maxIndex then 0x24#8 else 0x2D#8]) ∧
  (∀ (p q : Nat) (ps : List Nat) (v : Byte) (vs : List Byte),
    (q - p ≤ 3 → rle (p :: q :: ps) (v :: vs) = List.replicate (q - p) v ++ rle (q :: ps) vs) ∧
    (3 < q - p → rle (p :: q :: ps) (v :: vs) = [0x21#8] ++ dec (q - p) ++ [v] ++ rle (q :: ps) vs) ∧
    rle [p] [] = []) ∧
  dec 0 = [0x30#8] ∧
  (∀ n, 1 ≤ n → dec n = (Nat.digits 10 n).reverse.map (fun d => BitVec.ofNat 8 (0x30 + d)) ∧
    (dec n).head? ≠ some 0x30#8)

/-- R176, R178, R181: ENCBAND appends the segments of its band in the order of their palette indices. -/
def Obligations.EncbandAppendsBand : Prop :=
  ∀ (s : State) (b : Nat), s.encodeReady → b < s.numBands →
    s.fits ((List.range (s.maxIndex + 1)).flatMap fun pc => segment s b pc) →
    ∃ t, exec (.encband b) s = .next t ∧
      appended s t ((List.range (s.maxIndex + 1)).flatMap fun pc => segment s b pc)

/-- R177, R178, R182: ENCFRAME appends the bands from top to bottom. -/
def Obligations.EncframeAppendsBands : Prop :=
  ∀ (s : State) (out : List Byte), s.encodeReady →
    out = (List.range ((s.imgH + 5) / 6)).flatMap
      (fun b => (List.range (s.maxIndex + 1)).flatMap fun pc => segment s b pc) →
    s.fits out → ∃ t, exec .encframe s = .next t ∧ appended s t out

/-- R178, R179 to R182, R224: where the encoder commands end with an error, in their order. -/
def Obligations.EncoderErrors : Prop :=
  ∀ (s : State) (pc b : Nat),
    (s.maxIndex = 0 → ∀ i ∈ [Instr.sixchar pc b, .encseg pc b, .encband b, .encframe],
      exec i s = .next (errorState s .precond)) ∧
    (s.maxIndex < pc → ∀ i ∈ [Instr.sixchar pc b, .encseg pc b], exec i s = .next (errorState s .precond)) ∧
    (s.maxIndex ≠ 0 → pc ≤ s.maxIndex →
      (s.imgW = 0 ∨ s.imgH = 0 → ∀ i ∈ [Instr.sixchar pc b, .encseg pc b, .encband b, .encframe],
        exec i s = .next (errorState s .config)) ∧
      (s.numBands ≤ b → ∀ i ∈ [Instr.sixchar pc b, .encseg pc b, .encband b],
        exec i s = .next (errorState s .config)) ∧
      (s.imgW ≤ s.regs.arg0.toNat → exec (.sixchar pc b) s = .next (errorState s .config)) ∧
      (s.imgW ≠ 0 → s.imgH ≠ 0 → b < s.numBands →
        (s.regs.arg0.toNat < s.imgW → s.memSize < s.dbufRegion.hi →
          exec (.sixchar pc b) s = .next (errorState s .bus)) ∧
        (∀ i out, (i, out) ∈ [(Instr.encseg pc b, segment s b pc), (.encband b, bandBytes s b), (.encframe, frameBytes s)] →
          (s.dbufRegion.overlaps s.outWindow → exec i s = .next (errorState s .config)) ∧
          (¬ s.dbufRegion.overlaps s.outWindow → s.memSize < s.dbufRegion.hi ∨ s.memSize < s.outWindow.hi →
            exec i s = .next (errorState s .bus)) ∧
          (s.encodeReady → s.regs.outCap.toNat < s.regs.outLen.toNat + out.length →
            exec i s = .next (errorState s .outOverflow)))))

/-- R172: the edge list is the same for every lane width. -/
def Obligations.EdgeListIndependentOfLanes : Prop :=
  ∀ (ch : Nat → Byte) (k w : Nat), 1 ≤ k → edges ch k w = edges ch 1 w

/-- R173: what holds of every edge list of characters that differ from the initial carry. -/
def Obligations.EdgeListShape : Prop :=
  ∀ (ch : Nat → Byte) (k w : Nat), 1 ≤ k → 1 ≤ w → (∀ c, c < w → ch c ≠ 0#8) →
    (edges ch k w).pos.head? = some 0 ∧ (edges ch k w).pos.Pairwise (· < ·) ∧
    (edges ch k w).pos.getLast? = some w ∧ (edges ch k w).val.length + 1 = (edges ch k w).pos.length ∧
    ∀ i, i + 1 < (edges ch k w).val.length → (edges ch k w).val[i]? ≠ (edges ch k w).val[i + 1]?

/-- R183: expanding a segment's run data gives the sixel character of every column, the run data holds no framing
character, and every count has no leading zero and one character after it. -/
def Obligations.RunDataRoundTrip : Prop :=
  ∀ (s : State) (b pc : Nat) (run : List Byte),
    run = rle (bandEdges s b pc).pos (bandEdges s b pc).val →
    expandRuns run.length run = (List.range s.imgW).map (sixChar s b pc) ∧
    (∀ x ∈ run, x ≠ 0x23#8 ∧ x ≠ 0x24#8 ∧ x ≠ 0x2D#8) ∧
    (∀ before after : List Byte, run = before ++ 0x21#8 :: after →
      ∃ (len : Nat) (v : Byte) (rest : List Byte), 4 ≤ len ∧ after = dec len ++ v :: rest ∧
        (dec len).head? ≠ some 0x30#8 ∧ 0x3F ≤ v.toNat ∧ v.toNat ≤ 0x7E)

/-- R184: the length of a segment, and of a band whose segments are one run each. -/
def Obligations.SegmentLength : Prop :=
  (∀ (s : State) (b pc : Nat), (segment s b pc).length =
    2 + (dec pc).length + ((runLengths (bandEdges s b pc).pos).map runCost).sum) ∧
  (∀ (s : State) (b : Nat), 4 ≤ s.imgW →
    (∀ pc c, pc ≤ s.maxIndex → c < s.imgW → sixChar s b pc c = sixChar s b pc 0) →
    (bandBytes s b).length = (s.maxIndex + 1) * (4 + (dec s.imgW).length) +
      ((List.range (s.maxIndex + 1)).map fun pc => (dec pc).length).sum)

/-- R185: a pixel above N sets no bit of any mask of an index up to N. -/
def Obligations.ValuesAboveMaxSetNoBit : Prop :=
  ∀ (s : State) (b pc c k : Nat), pc ≤ s.maxIndex → k < 6 → s.maxIndex < s.pixel (6 * b + k) c →
    (sixMask s b pc c).testBit k = false

/-- R177, R178: the meanings of ENCBAND 0 to ENCBAND nb - 1, one from the state the other left and without the
acceptances between them (R84), end in the state that ENCFRAME's meaning ends in. -/
def Obligations.BandsMakeTheFrame : Prop :=
  ∀ s : State, s.encodeReady → s.fits (frameBytes s) →
    ∃ t, exec .encframe s = .next t ∧ t.regs.status.done = true ∧
      runCommands ((List.range s.numBands).map Instr.encband) s = .next t

/-- R63, R171 to R177: what the encoder emits depends on the registers, the parameters and the bytes of the working
region alone. -/
def Obligations.EncoderReadsOnlyWorkingRegion : Prop :=
  ∀ s u : State, s.regs = u.regs → s.params = u.params →
    (∀ a, s.dbufRegion.lo ≤ a → a < s.dbufRegion.hi → s.byteAt a = u.byteAt a) →
    frameBytes s = frameBytes u ∧ ∀ b pc, segment s b pc = segment u b pc
end

