-- ==== Sys2Proof/Laws/State.lean ====
section
/-! SUPPORT. The small lemmas of the record updates: one per field per update, so that no proof unfolds an update. -/
namespace Sys2Proof.Machine

@[simp] theorem setStatus_regs (s : State) (st : Status) : (s.setStatus st).regs = { s.regs with status := st } := rfl
@[simp] theorem setStatus_mem (s : State) (st : Status) : (s.setStatus st).mem = s.mem := rfl
@[simp] theorem setStatus_hostRace (s : State) (st : Status) : (s.setStatus st).hostRace = s.hostRace := rfl
@[simp] theorem setStatus_params (s : State) (st : Status) : (s.setStatus st).params = s.params := rfl
@[simp] theorem setStatus_draws (s : State) (st : Status) : (s.setStatus st).draws = s.draws := rfl
@[simp] theorem setStatus_host (s : State) (st : Status) : (s.setStatus st).host = s.host := rfl
@[simp] theorem setStatus_hostData (s : State) (st : Status) : (s.setStatus st).hostData = s.hostData := rfl

@[simp] theorem setResult0_regs (s : State) (v : Word) : (s.setResult0 v).regs = { s.regs with result0 := v } := rfl
@[simp] theorem setResult0_mem (s : State) (v : Word) : (s.setResult0 v).mem = s.mem := rfl
@[simp] theorem setResult0_hostRace (s : State) (v : Word) : (s.setResult0 v).hostRace = s.hostRace := rfl
@[simp] theorem setResult0_params (s : State) (v : Word) : (s.setResult0 v).params = s.params := rfl
@[simp] theorem setResult0_draws (s : State) (v : Word) : (s.setResult0 v).draws = s.draws := rfl
@[simp] theorem setResult0_host (s : State) (v : Word) : (s.setResult0 v).host = s.host := rfl
@[simp] theorem setResult0_hostData (s : State) (v : Word) : (s.setResult0 v).hostData = s.hostData := rfl

@[simp] theorem setResult1_regs (s : State) (v : Word) : (s.setResult1 v).regs = { s.regs with result1 := v } := rfl
@[simp] theorem setResult1_mem (s : State) (v : Word) : (s.setResult1 v).mem = s.mem := rfl
@[simp] theorem setResult1_hostRace (s : State) (v : Word) : (s.setResult1 v).hostRace = s.hostRace := rfl
@[simp] theorem setResult1_params (s : State) (v : Word) : (s.setResult1 v).params = s.params := rfl
@[simp] theorem setResult1_draws (s : State) (v : Word) : (s.setResult1 v).draws = s.draws := rfl
@[simp] theorem setResult1_host (s : State) (v : Word) : (s.setResult1 v).host = s.host := rfl
@[simp] theorem setResult1_hostData (s : State) (v : Word) : (s.setResult1 v).hostData = s.hostData := rfl

@[simp] theorem setOutLen_regs (s : State) (v : Word) : (s.setOutLen v).regs = { s.regs with outLen := v } := rfl
@[simp] theorem setOutLen_mem (s : State) (v : Word) : (s.setOutLen v).mem = s.mem := rfl
@[simp] theorem setOutLen_hostRace (s : State) (v : Word) : (s.setOutLen v).hostRace = s.hostRace := rfl
@[simp] theorem setOutLen_params (s : State) (v : Word) : (s.setOutLen v).params = s.params := rfl
@[simp] theorem setOutLen_draws (s : State) (v : Word) : (s.setOutLen v).draws = s.draws := rfl
@[simp] theorem setOutLen_host (s : State) (v : Word) : (s.setOutLen v).host = s.host := rfl
@[simp] theorem setOutLen_hostData (s : State) (v : Word) : (s.setOutLen v).hostData = s.hostData := rfl

@[simp] theorem acceptWord_regs (s : State) (w : Word) : (s.acceptWord w).regs = { s.regs with cmd := w, status := s.regs.status.accept } := rfl
@[simp] theorem acceptWord_mem (s : State) (w : Word) : (s.acceptWord w).mem = s.mem := rfl
@[simp] theorem acceptWord_hostRace (s : State) (w : Word) : (s.acceptWord w).hostRace = s.hostRace := rfl
@[simp] theorem acceptWord_params (s : State) (w : Word) : (s.acceptWord w).params = s.params := rfl
@[simp] theorem acceptWord_draws (s : State) (w : Word) : (s.acceptWord w).draws = s.draws := rfl
@[simp] theorem acceptWord_host (s : State) (w : Word) : (s.acceptWord w).host = s.host := rfl
@[simp] theorem acceptWord_hostData (s : State) (w : Word) : (s.acceptWord w).hostData = s.hostData := rfl

@[simp] theorem complete_regs (s : State) : s.complete.regs = { s.regs with status := s.regs.status.complete } := rfl
@[simp] theorem complete_mem (s : State) : s.complete.mem = s.mem := rfl
@[simp] theorem complete_hostRace (s : State) : s.complete.hostRace = s.hostRace := rfl
@[simp] theorem complete_params (s : State) : s.complete.params = s.params := rfl
@[simp] theorem complete_draws (s : State) : s.complete.draws = s.draws := rfl
@[simp] theorem complete_host (s : State) : s.complete.host = s.host := rfl
@[simp] theorem complete_hostData (s : State) : s.complete.hostData = s.hostData := rfl

@[simp] theorem raiseError_regs (s : State) (e : CmdError) : (s.raiseError e).regs = { s.regs with status := s.regs.status.fail e } := rfl
@[simp] theorem raiseError_mem (s : State) (e : CmdError) : (s.raiseError e).mem = s.mem := rfl
@[simp] theorem raiseError_hostRace (s : State) (e : CmdError) : (s.raiseError e).hostRace = s.hostRace := rfl
@[simp] theorem raiseError_params (s : State) (e : CmdError) : (s.raiseError e).params = s.params := rfl
@[simp] theorem raiseError_draws (s : State) (e : CmdError) : (s.raiseError e).draws = s.draws := rfl
@[simp] theorem raiseError_host (s : State) (e : CmdError) : (s.raiseError e).host = s.host := rfl
@[simp] theorem raiseError_hostData (s : State) (e : CmdError) : (s.raiseError e).hostData = s.hostData := rfl

@[simp] theorem acknowledge_regs (s : State) (v : Word) : (s.acknowledge v).regs = { s.regs with status := s.regs.status.acknowledge (v[1]) (v[2]) } := rfl
@[simp] theorem acknowledge_mem (s : State) (v : Word) : (s.acknowledge v).mem = s.mem := rfl
@[simp] theorem acknowledge_hostRace (s : State) (v : Word) : (s.acknowledge v).hostRace = s.hostRace := rfl
@[simp] theorem acknowledge_params (s : State) (v : Word) : (s.acknowledge v).params = s.params := rfl
@[simp] theorem acknowledge_draws (s : State) (v : Word) : (s.acknowledge v).draws = s.draws := rfl
@[simp] theorem acknowledge_host (s : State) (v : Word) : (s.acknowledge v).host = s.host := rfl
@[simp] theorem acknowledge_hostData (s : State) (v : Word) : (s.acknowledge v).hostData = s.hostData := rfl

@[simp] theorem setMem_mem (s : State) (m : Memory) : (s.setMem m).mem = m := rfl
@[simp] theorem setMem_regs (s : State) (m : Memory) : (s.setMem m).regs = s.regs := rfl
@[simp] theorem setMem_hostRace (s : State) (m : Memory) : (s.setMem m).hostRace = s.hostRace := rfl
@[simp] theorem setMem_params (s : State) (m : Memory) : (s.setMem m).params = s.params := rfl
@[simp] theorem setMem_draws (s : State) (m : Memory) : (s.setMem m).draws = s.draws := rfl
@[simp] theorem setMem_host (s : State) (m : Memory) : (s.setMem m).host = s.host := rfl
@[simp] theorem setMem_hostData (s : State) (m : Memory) : (s.setMem m).hostData = s.hostData := rfl

/-! A reset touches the registers only, but for what abandoning a command in flight does (R250, R251). -/

@[simp] theorem resetBlock_regs (s : State) : s.resetBlock.regs = Regs.reset := rfl
@[simp] theorem resetBlock_mem (s : State) : s.resetBlock.mem = s.abandon.mem := rfl
@[simp] theorem abandon_regs (s : State) : s.abandon.regs = s.regs := by unfold State.abandon; split <;> rfl
@[simp] theorem abandon_hostRace (s : State) : s.abandon.hostRace = s.hostRace := by unfold State.abandon; split <;> rfl
@[simp] theorem abandon_params (s : State) : s.abandon.params = s.params := by unfold State.abandon; split <;> rfl
@[simp] theorem abandon_host (s : State) : s.abandon.host = s.host := by unfold State.abandon; split <;> rfl
@[simp] theorem abandon_hostData (s : State) : s.abandon.hostData = s.hostData := by unfold State.abandon; split <;> rfl
@[simp] theorem resetBlock_hostRace (s : State) : s.resetBlock.hostRace = s.hostRace := abandon_hostRace s
@[simp] theorem resetBlock_params (s : State) : s.resetBlock.params = s.params := abandon_params s
@[simp] theorem resetBlock_host (s : State) : s.resetBlock.host = s.host := abandon_host s
@[simp] theorem resetBlock_hostData (s : State) : s.resetBlock.hostData = s.hostData := abandon_hostData s

/-- With no command in flight there is nothing to abandon. -/
theorem abandon_of_idle (s : State) (h : s.regs.status.busy = false) : s.abandon = s := by
  simp [State.abandon, h]

/-! Completion and error as the statements write them out (R222, R223). -/

theorem raiseError_eq_errorState (s : State) (e : CmdError) : s.raiseError e = errorState s e := by
  cases e <;> rfl

theorem complete_eq_doneStatus (s : State) : s.complete = s.setStatus (doneStatus s) := rfl

@[simp] theorem doneStatus_setMem (s : State) (m : Memory) : doneStatus (s.setMem m) = doneStatus s := rfl
@[simp] theorem doneStatus_setResult0 (s : State) (v : Word) : doneStatus (s.setResult0 v) = doneStatus s := rfl
@[simp] theorem doneStatus_setResult1 (s : State) (v : Word) : doneStatus (s.setResult1 v) = doneStatus s := rfl
@[simp] theorem doneStatus_setOutLen (s : State) (v : Word) : doneStatus (s.setOutLen v) = doneStatus s := rfl

end Sys2Proof.Machine
end

