-- ==== Sys2Proof/Laws/Memory.lean ====
section
/-! SUPPORT. Engine memory: read after write, and the canonical form kept by every operation. -/
namespace Sys2Proof.Machine

theorem lookup_write (m : Memory) (a b : Nat) (v : Byte) :
    Memory.lookup (Memory.write m a v) b = if b = a then some v else Memory.lookup m b := by
  induction m with
  | nil => simp [Memory.write, Memory.lookup]
  | cons c m ih =>
    obtain ⟨k, w⟩ := c
    simp only [Memory.write]
    split
    · simp [Memory.lookup]
    · split
      · subst a; simp only [Memory.lookup]; split <;> rfl
      · simp only [Memory.lookup, ih]
        split
        · next h => subst h; simp [Ne.symm ‹¬a = b›]
        · rfl

/-- What one write does to every read. -/
theorem read_write (m : Memory) (a b : Nat) (v : Byte) :
    Memory.read (Memory.write m a v) b = if b = a then v else Memory.read m b := by
  unfold Memory.read
  rw [lookup_write]
  split <;> simp

@[simp] theorem read_write_same (m : Memory) (a : Nat) (v : Byte) :
    Memory.read (Memory.write m a v) a = v := by
  simp [read_write]

theorem read_write_other (m : Memory) {a b : Nat} (v : Byte) (h : b ≠ a) :
    Memory.read (Memory.write m a v) b = Memory.read m b := by
  simp [read_write, h]

/-- What writing a byte string does to every read (R178). -/
theorem read_writeBytes (out : List Byte) : ∀ (m : Memory) (a b : Nat),
    Memory.read (Memory.writeBytes m a out) b =
      if a ≤ b then (out[b - a]?).getD (Memory.read m b) else Memory.read m b := by
  induction out with
  | nil => intro m a b; simp [Memory.writeBytes]
  | cons x xs ih =>
    intro m a b
    rw [Memory.writeBytes, ih, read_write]
    rcases Nat.lt_trichotomy b a with h | h | h
    · rw [if_neg (by omega), if_neg (by omega), if_neg (by omega)]
    · subst h; simp
    · rw [if_pos (by omega), if_neg (by omega), if_pos (by omega)]
      obtain ⟨k, rfl⟩ := Nat.exists_eq_add_of_lt h
      have : a + k + 1 - a = k + 1 := by omega
      have : a + k + 1 - (a + 1) = k := by omega
      simp [*]

theorem writeBytes_append (xs ys : List Byte) : ∀ (m : Memory) (a : Nat),
    Memory.writeBytes m a (xs ++ ys) = Memory.writeBytes (Memory.writeBytes m a xs) (a + xs.length) ys := by
  induction xs with
  | nil => intro m a; simp [Memory.writeBytes]
  | cons x xs ih =>
    intro m a
    rw [List.cons_append, Memory.writeBytes, Memory.writeBytes, ih, List.length_cons]
    congr 1; omega

theorem risesFrom_mono {lo lo' : Nat} (h : lo' ≤ lo) : ∀ {m : Memory},
    Memory.risesFrom lo m = true → Memory.risesFrom lo' m = true
  | [], _ => rfl
  | (a, v) :: m, hm => by
    simp only [Memory.risesFrom, Bool.and_eq_true, decide_eq_true_eq] at hm ⊢
    exact ⟨by omega, hm.2⟩

theorem risesFrom_write : ∀ (m : Memory) (lo a : Nat) (v : Byte), lo ≤ a →
    Memory.risesFrom lo m = true → Memory.risesFrom lo (Memory.write m a v) = true
  | [], lo, a, v, h, _ => by simp [Memory.write, Memory.risesFrom, h]
  | (b, w) :: m, lo, a, v, h, hm => by
    simp only [Memory.risesFrom, Bool.and_eq_true, decide_eq_true_eq] at hm
    simp only [Memory.write]
    split
    · simp only [Memory.risesFrom, Bool.and_eq_true, decide_eq_true_eq]
      exact ⟨h, by omega, hm.2⟩
    · split
      · subst a; simp only [Memory.risesFrom, Bool.and_eq_true, decide_eq_true_eq]; exact ⟨h, hm.2⟩
      · simp only [Memory.risesFrom, Bool.and_eq_true, decide_eq_true_eq]
        exact ⟨hm.1, risesFrom_write m (b + 1) a v (by omega) hm.2⟩

theorem all_write (p : Host.Cell → Bool) (a : Nat) (v : Byte) (hp : p (a, v) = true) : ∀ (m : Memory),
    m.all p = true → (Memory.write m a v).all p = true
  | [], _ => by simp [Memory.write, hp]
  | (b, w) :: m, hm => by
    simp only [List.all_cons, Bool.and_eq_true] at hm
    simp only [Memory.write]
    split
    · simp [hp, hm.1]; simpa using hm.2
    · split
      · simp [hp]; simpa using hm.2
      · simp only [List.all_cons, Bool.and_eq_true]; exact ⟨hm.1, all_write p a v hp m hm.2⟩

/-- A write below MEM_SIZE keeps the canonical form. -/
theorem wf_write {size : Nat} {m : Memory} (a : Nat) (v : Byte) (ha : a < size)
    (h : Memory.wf size m = true) : Memory.wf size (Memory.write m a v) = true := by
  simp only [Memory.wf, Bool.and_eq_true] at h ⊢
  exact ⟨risesFrom_write m 0 a v (Nat.zero_le _) h.1, all_write _ a v (by simpa using ha) m h.2⟩

/-- Consecutive writes below MEM_SIZE keep the canonical form. -/
theorem wf_writeBytes {size : Nat} (out : List Byte) : ∀ {m : Memory} (a : Nat), a + out.length ≤ size →
    Memory.wf size m = true → Memory.wf size (Memory.writeBytes m a out) = true := by
  induction out with
  | nil => intro m a _ h; simpa [Memory.writeBytes] using h
  | cons x xs ih =>
    intro m a ha h
    rw [List.length_cons] at ha
    exact ih (a + 1) (by omega) (wf_write a x (by omega) h)

/-- The memory of State.reset has the canonical form. -/
theorem wf_reset : Memory.wf State.reset.memSize State.reset.mem = true := rfl

end Sys2Proof.Machine
end

