-- ==== Sys2Proof/Laws/Ops.lean ====
section
/-! SUPPORT. One lemma per shared operation that says what it can do. -/
namespace Sys2Proof.Machine

/-! Loops. -/

/-- A loop keeps what each of its turns keeps. -/
theorem forUpTo_induct {σ : Type} (P : Nat → σ → Prop) (f : Nat → σ → σ) (n : Nat) (x : σ) (h0 : P 0 x)
    (hs : ∀ k y, k < n → P k y → P (k + 1) (f k y)) : P n (forUpTo n f x) := by
  induction n with
  | zero => exact h0
  | succ n ih => exact hs n _ (by omega) (ih fun k y hk => hs k y (by omega))

/-- A loop over pixels keeps what each pixel keeps. -/
theorem forEachPixel_keeps {σ : Type} (P : σ → Prop) (h w : Nat) (f : Nat → Nat → σ → σ) (x : σ) (h0 : P x)
    (hs : ∀ r c y, r < h → c < w → P y → P (f r c y)) : P (forEachPixel h w f x) :=
  forUpTo_induct (fun _ => P) _ h x h0 fun r y hr hy =>
    forUpTo_induct (fun _ => P) _ w y hy fun c z hc hz => hs r c z hr hc hz

/-- The loop over pixels by what holds once the rows above and the pixels to the left are done: rows `r` and
columns `c` count those already visited, in raster order (R147). -/
theorem forEachPixel_induct {σ : Type} (P : Nat → Nat → σ → Prop) (h w : Nat) (f : Nat → Nat → σ → σ) (x : σ)
    (h0 : P 0 0 x) (hrow : ∀ r y, r < h → P r w y → P (r + 1) 0 y)
    (hs : ∀ r c y, r < h → c < w → P r c y → P r (c + 1) (f r c y)) : P h 0 (forEachPixel h w f x) :=
  forUpTo_induct (fun r => P r 0) _ h x h0 fun r y hr hy =>
    hrow r _ hr (forUpTo_induct (P r) _ w y hy fun c z hc hz => hs r c z hr hc hz)

/-! Pixels of the working buffer. -/

/-- The pixels of the working buffer lie in its region (R63). -/
theorem dbufAddr_lt (s : State) {r c : Nat} (hr : r < s.imgH) (hc : c < s.imgW) :
    s.dbufAddr r c < s.dbufRegion.hi := by
  have h : (r + 1) * s.imgW ≤ s.imgH * s.imgW := Nat.mul_le_mul_right _ hr
  rw [Nat.add_mul, Nat.one_mul] at h
  simp only [State.dbufAddr, State.dbufRegion, Nat.mul_comm s.imgW]
  omega

theorem dbufAddr_ge (s : State) (r c : Nat) : s.dbufRegion.lo ≤ s.dbufAddr r c := by
  simp only [State.dbufAddr, State.dbufRegion]; omega

/-- Different pixels of the image have different working bytes (R63). -/
theorem dbufAddr_inj (s : State) {r c r' c' : Nat} (hc : c < s.imgW) (hc' : c' < s.imgW)
    (h : s.dbufAddr r c = s.dbufAddr r' c') : r = r' ∧ c = c' := by
  simp only [State.dbufAddr] at h
  have h1 : r * s.imgW + c = r' * s.imgW + c' := by omega
  have hw : 0 < s.imgW := by omega
  have hr : r = r' := by
    have e1 : (r * s.imgW + c) / s.imgW = r := by
      rw [Nat.mul_comm, Nat.mul_add_div hw, Nat.div_eq_of_lt hc, Nat.add_zero]
    have e2 : (r' * s.imgW + c') / s.imgW = r' := by
      rw [Nat.mul_comm, Nat.mul_add_div hw, Nat.div_eq_of_lt hc', Nat.add_zero]
    rw [← e1, ← e2, h1]
  subst hr
  exact ⟨rfl, by omega⟩

/-- Every byte of the working region is a pixel (R63). -/
theorem dbufRegion_pixel (s : State) {a : Nat} (h : s.dbufRegion.contains a) :
    ∃ r c, r < s.imgH ∧ c < s.imgW ∧ a = s.dbufAddr r c := by
  simp only [Region.contains, State.dbufRegion] at h
  obtain ⟨k, rfl⟩ := Nat.exists_eq_add_of_le h.1
  have hk : k < s.imgW * s.imgH := by omega
  have hw : 0 < s.imgW := by
    rcases Nat.eq_zero_or_pos s.imgW with e | e
    · rw [e, Nat.zero_mul] at hk; omega
    · exact e
  refine ⟨k / s.imgW, k % s.imgW, Nat.div_lt_of_lt_mul hk, Nat.mod_lt _ hw, ?_⟩
  simp only [State.dbufAddr]
  have := Nat.div_add_mod k s.imgW
  rw [Nat.mul_comm] at this
  omega

/-! How a command ends. -/

/-- A command gets past a check exactly when the check's condition fails. -/
theorem check_ok {α : Type} {c : Prop} [Decidable c] {e : CmdError} {k : Except CmdError α} {x : α} :
    (if c then .error e else k) = Except.ok x ↔ ¬ c ∧ k = .ok x := by
  split <;> simp [*]

@[simp] theorem finish_ok (s t : State) : finish s (.ok t) = .next t.complete := rfl

@[simp] theorem finish_error (s : State) (e : CmdError) : finish s (.error e) = .next (errorState s e) := by
  rw [← raiseError_eq_errorState]; rfl

/-- A command always ends in a next state: completed, or with an error and none of its effect (R221). -/
theorem finish_cases (s : State) (r : Except CmdError State) :
    (∃ t, r = .ok t ∧ finish s r = .next t.complete) ∨
    (∃ e, r = .error e ∧ finish s r = .next (errorState s e)) := by
  cases r with
  | ok t => exact .inl ⟨t, rfl, rfl⟩
  | error e => exact .inr ⟨e, rfl, finish_error s e⟩

/-- The checks of LOADGRAY and MAP256 pass exactly when the state is ready for them (R141, R142). -/
theorem checkLoad_of_ready {α : Type} {s : State} (h : s.loadReady) (k : Except CmdError α) :
    checkLoad s k = k := by
  obtain ⟨hw, hh, ho, h1, h2⟩ := h
  unfold checkLoad
  rw [if_neg (not_or.mpr ⟨hw, hh⟩), if_neg ho,
    if_neg (not_or.mpr ⟨Nat.not_lt.mpr h1, Nat.not_lt.mpr h2⟩)]

/-- The region checks of the appending commands pass when the state is ready for them (R180 to R182). -/
theorem checkEncoder_of_ready {α : Type} {s : State} (h : s.encodeReady) (k : Except CmdError α) :
    checkEncoder s k = k := by
  obtain ⟨_, _, _, ho, h1, h2⟩ := h
  unfold checkEncoder
  rw [if_neg ho, if_neg (not_or.mpr ⟨Nat.not_lt.mpr h1, Nat.not_lt.mpr h2⟩)]

/-- The append either overflows or writes every byte and moves OUT_LEN (R178). -/
theorem appendOutput_cases (s : State) (out : List Byte) :
    (¬ s.fits out ∧ appendOutput s out = .error .outOverflow) ∨
    (s.fits out ∧ appendOutput s out =
      .ok ((s.setMem (Memory.writeBytes s.mem (s.regs.outBase.toNat + s.regs.outLen.toNat) out)).setOutLen
        (BitVec.ofNat 32 (s.regs.outLen.toNat + out.length)))) := by
  unfold appendOutput State.fits
  by_cases h : s.regs.outLen.toNat + out.length ≤ s.regs.outCap.toNat
  · exact .inr ⟨h, if_neg (Nat.not_lt.mpr h)⟩
  · exact .inl ⟨h, if_pos (Nat.not_le.mp h)⟩

/-- A completed append is what the statements call `appended`. -/
theorem appended_of_fits {s : State} {out : List Byte} (h : s.fits out) :
    appended s ((s.setMem (Memory.writeBytes s.mem (s.regs.outBase.toNat + s.regs.outLen.toNat) out)).setOutLen
      (BitVec.ofNat 32 (s.regs.outLen.toNat + out.length))).complete out := by
  have hcap := s.regs.outCap.isLt
  unfold State.fits at h
  refine ⟨fun k hk => ?_, fun a ha => ?_, ?_, rfl⟩
  · simp [State.byteAt, read_writeBytes, List.getElem?_eq_getElem hk]
  · simp only [State.byteAt, complete_mem, setOutLen_mem, setMem_mem, read_writeBytes]
    split
    · rw [List.getElem?_eq_none (by omega)]; rfl
    · rfl
  · simp only [complete_regs, setOutLen_regs, setMem_regs, BitVec.toNat_ofNat]
    exact Nat.mod_eq_of_lt (by omega)

/-- A write of a free byte to each address of a region leaves every other byte alone (R251). -/
theorem read_fillFree (d : Nat) (g : Region) (m : Memory) (a : Nat) :
    Memory.read (Memory.fillFree d g m) a = if g.contains a then Config.freeByte d a else Memory.read m a := by
  unfold Memory.fillFree
  have key : ∀ n, Memory.read (forUpTo n (fun i k => Memory.write k (g.lo + i) (Config.freeByte d (g.lo + i))) m) a
      = if g.lo ≤ a ∧ a < g.lo + n then Config.freeByte d a else Memory.read m a := by
    intro n
    induction n with
    | zero => simp only [forUpTo, Nat.add_zero]; rw [if_neg (by omega)]
    | succ n ih =>
      simp only [forUpTo, read_write, ih]
      by_cases ha : a = g.lo + n
      · subst ha; rw [if_pos rfl, if_pos (by omega)]
      · rw [if_neg ha]
        by_cases hb : g.lo ≤ a ∧ a < g.lo + n
        · rw [if_pos hb, if_pos (by omega)]
        · rw [if_neg hb, if_neg (by omega)]
  rw [key]
  by_cases h : g.lo ≤ a ∧ a < g.hi
  · rw [if_pos (by omega), if_pos h]
  · rw [if_neg (by omega), if_neg h]

/-- The free bytes keep the canonical form when the region lies below MEM_SIZE. -/
theorem wf_fillFree {size : Nat} (d : Nat) (g : Region) {m : Memory} (hg : g.hi ≤ size)
    (h : Memory.wf size m = true) : Memory.wf size (Memory.fillFree d g m) = true :=
  forUpTo_induct (fun _ m => Memory.wf size m = true) _ _ m h fun k _ hk hm => wf_write _ _ (by omega) hm

/-! Arithmetic. -/

/-- A saturated byte is the clamped integer (R11). -/
theorem sat8_toNat (v : Int) : ((sat8 v).toNat : Int) = min (max v 0) 255 := by
  simp only [sat8, BitVec.toNat_ofNat]
  omega

/-- `tdiv` is the library's truncating division (R10). -/
theorem tdiv_eq_tdiv (a : Int) (b : Nat) : tdiv a b = Int.tdiv a (b : Int) := by
  unfold tdiv
  obtain ⟨n, rfl | rfl⟩ := Int.eq_nat_or_neg a
  · rcases Nat.eq_zero_or_pos n with rfl | h
    · simp
    · rw [Int.sign_eq_one_of_pos (by exact_mod_cast h), Int.natAbs_natCast, one_mul]; rfl
  · rcases Nat.eq_zero_or_pos n with rfl | h
    · simp
    · rw [Int.sign_neg, Int.sign_eq_one_of_pos (by exact_mod_cast h), Int.natAbs_neg, Int.natAbs_natCast,
        Int.neg_tdiv, neg_one_mul]; rfl

end Sys2Proof.Machine
end

