-- ==== Sys2Proof/Laws/PerInstr.lean ====
section
/-! SUPPORT. The statements made per instruction: each about the command as syntax and its encoding. -/
namespace Sys2Proof.Laws

/-- A well-formed command's word carries its opcode in bits 7:0, its palette index in bits 15:8 and its band
index in bits 31:16, an absent immediate being zero (R80, R81, R88). -/
def EncodedFields.Statement (i : Instr) : Prop :=
  i.wellFormed = true →
    (encode i).toNat % 256 = i.opcode ∧ (encode i).toNat / 256 % 256 = i.immPc ∧ (encode i).toNat / 65536 = i.immB

namespace EncodedFields

theorem nop : Statement .nop := fun _ => by decide
theorem qselect : Statement .qselect := fun _ => by decide
theorem luma : Statement .luma := fun _ => by decide
theorem grayidx : Statement .grayidx := fun _ => by decide
theorem cubeidx : Statement .cubeidx := fun _ => by decide
theorem cdist : Statement .cdist := fun _ => by decide
theorem qtrunc : Statement .qtrunc := fun _ => by decide
theorem palread : Statement .palread := fun _ => by decide
theorem loadgray : Statement .loadgray := fun _ => by decide
theorem map256 : Statement .map256 := fun _ => by decide
theorem dither : Statement .dither := fun _ => by decide
theorem encframe : Statement .encframe := fun _ => by decide

theorem sixchar (pc b : Nat) : Statement (.sixchar pc b) := by
  intro h
  simp only [Instr.wellFormed, paletteIndexFits, bandIndexFits, Bool.and_eq_true, decide_eq_true_eq] at h
  simp only [encode, Instr.immB, Instr.immPc, Instr.opcode, BitVec.toNat_ofNat]
  omega

theorem encseg (pc b : Nat) : Statement (.encseg pc b) := by
  intro h
  simp only [Instr.wellFormed, paletteIndexFits, bandIndexFits, Bool.and_eq_true, decide_eq_true_eq] at h
  simp only [encode, Instr.immB, Instr.immPc, Instr.opcode, BitVec.toNat_ofNat]
  omega

theorem encband (b : Nat) : Statement (.encband b) := by
  intro h
  simp only [Instr.wellFormed, bandIndexFits, decide_eq_true_eq] at h
  simp only [encode, Instr.immB, Instr.immPc, Instr.opcode, BitVec.toNat_ofNat]
  omega

end EncodedFields
end Sys2Proof.Laws
end

