-- ==== Sys2Proof/Laws/Step.lean ====
section
/-! SUPPORT. What a step, a command, a host action and the edge scan can do, each said once. -/
namespace Sys2Proof.Machine

/-- Everything a step that goes on can be: a decoded command, an illegal word, a host action, or waiting (R259). -/
theorem step_cases {s t : State} (h : step s = .next t) :
    (∃ i, s.regs.status.busy = true ∧ s.hostYields = true ∧ decode s.regs.cmd = .ok i ∧ exec i s = .next t) ∨
    (∃ e, s.regs.status.busy = true ∧ s.hostYields = true ∧ decode s.regs.cmd = .error e ∧
      t = errorState s .illegalCmd) ∨
    (∃ x rest, s.host = x :: rest ∧ hostAct x { s with host := rest } = .next t) ∨
    (s.host = [] ∧ s.regs.status.busy = false ∧ t = s) := by
  unfold step State.turn at h
  by_cases hb : s.regs.status.busy = true ∧ s.hostYields = true
  · rw [if_pos (by simpa using hb)] at h
    unfold State.engineTurn at h
    cases hd : decode s.regs.cmd with
    | ok i => rw [hd] at h; exact .inl ⟨i, hb.1, hb.2, rfl, h⟩
    | error e =>
      rw [hd] at h
      simp only [Host.Outcome.next.injEq] at h
      exact .inr (.inl ⟨e, hb.1, hb.2, rfl, by rw [← h, raiseError_eq_errorState]⟩)
  · rw [if_neg (by simpa using hb)] at h
    cases hh : s.host with
    | nil =>
      rw [hh] at h
      simp only [Host.Outcome.next.injEq] at h
      refine .inr (.inr (.inr ⟨rfl, ?_, h.symm⟩))
      have : s.hostYields = true := by unfold State.hostYields; rw [hh]
      by_contra hc
      exact hb ⟨by simpa using hc, this⟩
    | cons x rest => rw [hh] at h; exact .inr (.inr (.inl ⟨x, rest, rfl, h⟩))

/-- Every command ends through `finish` (R222, R223), whatever it computed before. -/
theorem exec_finish (i : Instr) (s : State) : ∃ r, exec i s = finish s r := by
  cases i
  case nop => unfold exec execNop; exact ⟨_, rfl⟩
  case luma => unfold exec execLuma; exact ⟨_, rfl⟩
  case cubeidx => unfold exec execCubeidx; exact ⟨_, rfl⟩
  case cdist => unfold exec execCdist; exact ⟨_, rfl⟩
  case qtrunc => unfold exec execQtrunc; exact ⟨_, rfl⟩
  all_goals exact ⟨_, rfl⟩

/-- What a host action can be, where it does not stop (R62, R67, R88, R250). -/
theorem hostAct_cases {x : HostAction} {s t : State} (h : hostAct x s = .next t) :
    t = s ∨ (∃ v, t = { s with hostData := v }) ∨ (∃ reg v, t = s.writeReg reg v) ∨ t = s.resetBlock ∨
    (∃ a v, x = .memWrite a v ∧ a < s.memSize ∧ s.inRunningRegion a = false ∧ t = s.setMem (Memory.write s.mem a v)) ∨
    (∃ a v, x = .memWrite a v ∧ a < s.memSize ∧ s.inRunningRegion a = true ∧
      t = { s with mem := Memory.write s.mem a (Config.freeByte s.draws a), draws := s.draws + 1, hostRace := true }) ∨
    (∃ a, x = .memRead a ∧ a < s.memSize ∧ s.inRunningRegion a = true ∧
      t = { s with hostData := BitVec.setWidth 32 (Config.freeByte s.draws a), draws := s.draws + 1 }) := by
  cases x with
  | regWrite width addr v =>
    simp only [hostAct, hostRegWrite] at h
    split at h
    · cases h
    · split at h <;> cases h
      · exact .inl rfl
      · exact .inr (.inr (.inl ⟨_, _, rfl⟩))
  | regRead width addr =>
    simp only [hostAct, hostRegRead] at h
    split at h
    · cases h
    · split at h <;> cases h <;> exact .inr (.inl ⟨_, rfl⟩)
  | memWrite a v =>
    simp only [hostAct, hostMemWrite] at h
    split at h
    · cases h
    · next ha =>
      split at h <;> cases h
      · next hr => exact .inr (.inr (.inr (.inr (.inr (.inl ⟨a, v, rfl, by omega, hr, rfl⟩)))))
      · next hr => exact .inr (.inr (.inr (.inr (.inl ⟨a, v, rfl, by omega, by simpa using hr, rfl⟩))))
  | memRead a =>
    simp only [hostAct, hostMemRead] at h
    split at h
    · cases h
    · next ha =>
      split at h <;> cases h
      · next hr => exact .inr (.inr (.inr (.inr (.inr (.inr ⟨a, rfl, by omega, hr, rfl⟩)))))
      · exact .inr (.inl ⟨_, rfl⟩)
  | irqRead => cases h; exact .inr (.inl ⟨_, rfl⟩)
  | hardReset => cases h; exact .inr (.inr (.inr (.inl rfl)))
  | wait => cases h; exact .inr (.inl ⟨_, rfl⟩)

/-- The regions the engine uses are those of R63 written out (R67). -/
theorem inRunningRegion_iff (s : State) (a : Nat) : s.inRunningRegion a = true ↔ s.usedInFlight a := by
  have key : (a : Int) < s.regs.srcBase.toNat + ((s.imgH : Int) - 1) * s.regs.stride.toNat +
      (s.imgW : Int) * s.regs.channels.toNat ↔ a < s.srcRegion.hi := by
    rw [sub_one_mul, ← Int.natCast_mul, ← Int.natCast_mul]
    simp only [State.srcRegion]
    omega
  unfold State.inRunningRegion State.usedInFlight
  rw [key]
  cases hd : decode s.regs.cmd with
  | error e => simp
  | ok i => cases i <;> simp [State.regionsOf, State.srcRegion, State.dbufRegion, State.outWindow]

/-- A register write stores, resets, acknowledges, offers a word, or does nothing (R84, R211, R254). -/
theorem writeReg_cases (s : State) (reg : Reg) (v : Word) :
    s.writeReg reg v = s ∨ (s.regs.status.busy = false ∧ s.writeReg reg v = { s with regs := s.regs.store reg v }) ∨
    s.writeReg reg v = s.resetBlock ∨
    s.writeReg reg v = { s with regs := { s.regs with ctrl := s.regs.ctrl.write s.regs.status.busy v } } ∨
    s.writeReg reg v = s.acknowledge v ∨
    (s.regs.status.busy = false ∧ s.regs.status.fatal = false ∧ s.writeReg reg v = s.acceptWord v) := by
  have plain : (if s.regs.status.busy then s else { s with regs := s.regs.store reg v }) = s ∨
      (s.regs.status.busy = false ∧
        (if s.regs.status.busy then s else { s with regs := s.regs.store reg v }) =
          { s with regs := s.regs.store reg v }) := by
    cases hb : s.regs.status.busy <;> simp
  cases reg
  case ctrl =>
    by_cases h : v[0] = true
    · exact .inr (.inr (.inl (if_pos h)))
    · exact .inr (.inr (.inr (.inl (if_neg h))))
  case status => exact .inr (.inr (.inr (.inr (.inl rfl))))
  case cmd =>
    cases hb : s.regs.status.busy
    · cases hf : s.regs.status.fatal
      · exact .inr (.inr (.inr (.inr (.inr ⟨rfl, rfl, by simp [State.writeReg, State.offerWord, hb, hf]⟩))))
      · exact .inl (by simp [State.writeReg, State.offerWord, hb, hf])
    · exact .inl (by simp [State.writeReg, State.offerWord, hb])
  all_goals exact plain.elim .inl fun h => .inr (.inl h)

/-- What a reset does to every byte of memory (R251, R252). -/
theorem resetBlock_byteAt (s : State) (a : Nat) : s.resetBlock.byteAt a =
    if s.regs.status.busy = true ∧ s.abandonedRegion.contains a then Config.freeByte s.draws a else s.byteAt a := by
  unfold State.byteAt
  rw [resetBlock_mem]
  unfold State.abandon
  cases hb : s.regs.status.busy
  · simp
  · simp only [if_true, read_fillFree, true_and]

/-- A word decodes to a command of the opcode map that its format's zero field allows (R83, R85). -/
theorem decode_eq_ok {w : Word} {i : Instr} (h : decode w = .ok i) :
    ∃ f, opcodeMap (bitsOf w 7 0) (bitsOf w 15 8) (bitsOf w 31 16) = some (f, i) ∧
      (f = .n → bitsOf w 31 8 = 0) ∧ (f = .b → bitsOf w 15 8 = 0) := by
  unfold decode at h
  split at h
  · cases h
  · next j hm => split at h <;> cases h; exact ⟨.n, hm, fun _ => ‹_›, fun e => by cases e⟩
  · next j hm => split at h <;> cases h; exact ⟨.b, hm, (fun e => by cases e), fun _ => ‹_›⟩
  · next j hm => cases h; exact ⟨.s, hm, (fun e => by cases e), fun e => by cases e⟩

/-- Loops one after the other make one loop. -/
theorem forUpTo_add {σ : Type} (f : Nat → σ → σ) (m : Nat) (x : σ) : ∀ n,
    forUpTo (m + n) f x = forUpTo n (fun i => f (m + i)) (forUpTo m f x)
  | 0 => rfl
  | n + 1 => congrArg (f (m + n)) (forUpTo_add f m x n)

/-- A loop whose turns agree gives the same. -/
theorem forUpTo_congr {σ : Type} {f g : Nat → σ → σ} (x : σ) : ∀ n, (∀ i y, i < n → f i y = g i y) →
    forUpTo n f x = forUpTo n g x
  | 0, _ => rfl
  | n + 1, h => by
    simp only [forUpTo, h n _ (Nat.lt_succ_self n), forUpTo_congr x n fun i y hi => h i y (Nat.lt_succ_of_lt hi)]

/-- A sixel mask is a 6-bit number (R171). -/
theorem sixMask_le (s : State) (b pc c : Nat) : sixMask s b pc c ≤ 63 := by
  have key : ∀ k, maskBit s b pc c k ≤ 2 ^ k := fun k => by unfold maskBit; split <;> simp
  have h0 := key 0; have h1 := key 1; have h2 := key 2; have h3 := key 3; have h4 := key 4; have h5 := key 5
  unfold sixMask
  norm_num at h0 h1 h2 h3 h4 h5
  omega

/-- A sixel character lies in 0x3F to 0x7E (R171). -/
theorem sixChar_toNat (s : State) (b pc c : Nat) : (sixChar s b pc c).toNat = 0x3F + sixMask s b pc c := by
  have := sixMask_le s b pc c
  simp only [sixChar, BitVec.toNat_ofNat]
  omega

end Sys2Proof.Machine
end

