-- ==== Sys2Proof/Tests/Slice0.lean ====
section
/-! SUPPORT. The model's own tests: words decoded, one step on small states with results from the spec's test
vectors (95_test_vectors.md), and a state that meets the hypotheses of each statement. -/
namespace Sys2Proof.Tests
open Sys2Proof Sys2Proof.Machine

/-! ## Helpers -/

/-- Parameters of the test vectors: MEM_SIZE = 0x10000. -/
def params : Params :=
  { topAddr := 0xFFFF#32, regPage := 1, lanesPred := 1, base16 := Vector.replicate 16 ⟨1#8, 2#8, 3#8⟩, grayTop := .clamp }

/-- The reset registers and some memory. -/
def base : State := { State.reset with params := params }

/-- Reset, with ARG0 and ARG1. -/
def withArgs (a0 a1 : Word) : State := { base with regs := { Regs.reset with arg0 := a0, arg1 := a1 } }

/-- Bytes at rising addresses. -/
def bytesAt (a : Nat) (vs : List Nat) : Memory := vs.zipIdx.map fun p => (a + p.2, BitVec.ofNat 8 p.1)

/-- A working buffer of the given size and contents at 0x100, QSTEP and NCOLS, and an output window of 64 bytes
at 0x200. -/
def image (w h n cols : Nat) (px : List Nat) : State :=
  { base with
    mem := bytesAt 0x100 px
    regs := { Regs.reset with
      width := BitVec.ofNat 16 w, height := BitVec.ofNat 16 h, qstep := BitVec.ofNat 8 n, ncols := BitVec.ofNat 8 cols,
      dbufBase := 0x100#32, outBase := 0x200#32, outCap := 64#32 } }

/-- RESULT0, RESULT1 and STATUS after a step. -/
def results : Host.Outcome State Fault Refusal → Option (Nat × Nat × Nat)
  | .next t => some (t.regs.result0.toNat, t.regs.result1.toNat, t.regs.status.word.toNat)
  | .fault _ => none
  | .refused _ => none

/-- STATUS, OUT_LEN and some bytes of memory after a step. -/
def memory (a n : Nat) : Host.Outcome State Fault Refusal → Option (Nat × Nat × List Nat)
  | .next t => some (t.regs.status.word.toNat, t.regs.outLen.toNat, (List.range n).map fun k => (t.byteAt (a + k)).toNat)
  | .fault _ => none
  | .refused _ => none

/-- The property of the next state, if there is one. -/
def nextIs (p : State → Bool) : Host.Outcome State Fault Refusal → Bool
  | .next t => p t
  | .fault _ => false
  | .refused _ => false

/-! ## Well-formedness: a command outside each range is refused -/

theorem test_wellFormed_pc : (Instr.sixchar 256 0).wellFormed = false := by decide
theorem test_wellFormed_pc_encseg : (Instr.encseg 256 0).wellFormed = false := by decide
theorem test_wellFormed_b_sixchar : (Instr.sixchar 0 65536).wellFormed = false := by decide
theorem test_wellFormed_b_encseg : (Instr.encseg 0 65536).wellFormed = false := by decide
theorem test_wellFormed_b : (Instr.encband 65536).wellFormed = false := by decide
theorem test_wellFormed_top : (Instr.encseg 255 65535).wellFormed = true := by decide

/-! ## Decoding: words written out from R83 and R88 -/

theorem test_decode_nop : decode 0b00000000000000000000000000000000#32 = .ok .nop := by decide
theorem test_decode_qselect : decode 0b00000000000000000000000000000001#32 = .ok .qselect := by decide
theorem test_decode_luma : decode 0b00000000000000000000000000000010#32 = .ok .luma := by decide
theorem test_decode_grayidx : decode 0b00000000000000000000000000000011#32 = .ok .grayidx := by decide
theorem test_decode_cubeidx : decode 0b00000000000000000000000000000100#32 = .ok .cubeidx := by decide
theorem test_decode_cdist : decode 0b00000000000000000000000000000101#32 = .ok .cdist := by decide
theorem test_decode_qtrunc : decode 0b00000000000000000000000000000110#32 = .ok .qtrunc := by decide
theorem test_decode_palread : decode 0b00000000000000000000000000000111#32 = .ok .palread := by decide
theorem test_decode_loadgray : decode 0b00000000000000000000000000010000#32 = .ok .loadgray := by decide
theorem test_decode_map256 : decode 0b00000000000000000000000000010001#32 = .ok .map256 := by decide
theorem test_decode_dither : decode 0b00000000000000000000000000010010#32 = .ok .dither := by decide
theorem test_decode_sixchar : decode 0b00000000000000010000000100100000#32 = .ok (.sixchar 1 1) := by decide
theorem test_decode_encseg : decode 0b00000000000000010000101000100001#32 = .ok (.encseg 10 1) := by decide
theorem test_decode_encband : decode 0b00000000000000100000000000100010#32 = .ok (.encband 2) := by decide
theorem test_decode_encframe : decode 0b00000000000000000000000000100011#32 = .ok .encframe := by decide
theorem test_decode_reserved : decode 0x00000008#32 = .error .reservedOpcode := by decide
theorem test_decode_formatN : decode 0x00000101#32 = .error .formatNNonZero := by decide
theorem test_decode_formatB : decode 0x00000122#32 = .error .formatBNonZero := by decide
theorem test_table_word : decodeTableWord 32 0xFFFFFF21 = some (.encseg 255 65535) := by decide

/-! ## One step on small states, from the vectors of 95_test_vectors.md -/

/-- V-C1. -/
theorem test_nop : results (step (base.withFetchWord 32 0)) = some (0, 0, 0x2) := by decide
/-- V-Q1: x = 128, n = 255. -/
theorem test_qselect : results (exec .qselect { withArgs 0x00000080#32 0#32 with
    regs := { (withArgs 0x00000080#32 0#32).regs with qstep := 255#8 } }) = some (1, 0xFFFFFF81, 0x2) := by decide
/-- V-X4. -/
theorem test_qselect_zero : results (step (base.withFetchWord 32 1)) = some (0, 0, 0x30C) := by decide
/-- V-Q2. -/
theorem test_luma : results (exec .luma (withArgs 0xABC86432#32 0#32)) = some (117, 0, 0x2) := by decide
/-- V-Q3. -/
theorem test_grayidx : results (exec .grayidx (withArgs 0x00000085#32 0#32)) = some (245, 138, 0x2) := by decide
/-- V-Q3 under CUBE. -/
theorem test_grayidx_cube : results (exec .grayidx { withArgs 250#32 0#32 with params := { params with grayTop := .cube } }) =
    some (0x100, 0, 0x2) := by decide
/-- V-Q4. -/
theorem test_cubeidx : results (exec .cubeidx (withArgs 0x004D7F80#32 0#32)) = some (103, 0x00666699, 0x2) := by decide
/-- V-Q5. -/
theorem test_cdist : results (exec .cdist (withArgs 0x00000000#32 0x00FFFFFF#32)) = some (195075, 0, 0x2) := by decide
/-- V-Q6: the tie at 3. -/
theorem test_qtrunc_tie : results (exec .qtrunc (withArgs 0x00010101#32 0#32)) = some (16, 3, 0x2) := by decide
/-- V-Q6: the clamped gray. -/
theorem test_qtrunc_clamp : results (exec .qtrunc (withArgs 0x00E8FFFE#32 0#32)) = some (255, 365, 0x2) := by decide
/-- V-Q7, 256 mode. -/
theorem test_palread : results (exec .palread { withArgs 196#32 0#32 with
    regs := { (withArgs 196#32 0#32).regs with ctrl := { Regs.reset.ctrl with palMode := true } } }) =
    some (0x00FF0000, 0, 0x2) := by decide
/-- V-Q7, gray mode. -/
theorem test_palread_gray : results (exec .palread { withArgs 2#32 0#32 with
    regs := { (withArgs 2#32 0#32).regs with ncols := 3#8 } }) = some (67, 0, 0x2) := by decide

/-- V-D15. -/
def loadState : State :=
  { image 2 2 0 0 [] with
    mem := bytesAt 0 [10, 20, 99, 99, 30, 40]
    regs := { (image 2 2 0 0 []).regs with stride := 4#32 } }
theorem test_loadgray : memory 0x100 4 (exec .loadgray loadState) = some (0x2, 0, [10, 20, 30, 40]) := by decide
/-- V-D16. -/
def mapState : State :=
  { image 2 1 0 0 [] with
    mem := bytesAt 0 [128, 128, 128, 255, 0, 0]
    regs := { (image 2 1 0 0 []).regs with stride := 6#32, channels := 3#8 } }
theorem test_map256 : memory 0x100 2 (exec .map256 mapState) = some (0x2, 0, [244, 196]) := by decide
/-- V-D2: a negative error after a positive one. -/
theorem test_dither : memory 0x100 4 (exec .dither (image 2 2 255 1 [100, 100, 100, 100])) = some (0x2, 0, [0, 1, 0, 0]) := by
  decide
/-- V-D5: err −1 spreads nothing. -/
theorem test_dither_truncates : memory 0x100 4 (exec .dither (image 2 2 2 1 [255, 100, 100, 100])) =
    some (0x2, 0, [128, 50, 50, 50]) := by decide
/-- V-S. -/
theorem test_sixchar : results (exec (.sixchar 1 0) (image 1 6 0 1 [0, 0, 1, 1, 0, 0])) = some (0x4B, 0x0C, 0x2) := by decide
/-- V-E7: a two-digit index. -/
theorem test_encseg : memory 0x200 6 (exec (.encseg 10 0) (image 2 1 0 12 [10, 10])) =
    some (0x2, 6, [0x23, 0x31, 0x30, 0x40, 0x40, 0x24]) := by decide
/-- W5. -/
theorem test_encband : memory 0x200 8 (exec (.encband 0) (image 1 6 0 1 [0, 0, 1, 1, 0, 0])) =
    some (0x2, 8, [0x23, 0x30, 0x72, 0x24, 0x23, 0x31, 0x4B, 0x2D]) := by decide
/-- V-E12: the boundary between a literal run of 3 and a counted run of 4. -/
theorem test_encframe : memory 0x200 18 (exec .encframe (image 7 1 0 1 [0, 0, 0, 0, 1, 1, 1])) =
    some (0x2, 18, [0x23, 0x30, 0x21, 0x34, 0x40, 0x3F, 0x3F, 0x3F, 0x24,
      0x23, 0x31, 0x21, 0x34, 0x3F, 0x40, 0x40, 0x40, 0x2D]) := by decide
/-- V-X15. -/
theorem test_overflow : memory 0x100 1 (exec (.encband 0)
    { image 1 6 0 1 [0, 0, 1, 1, 0, 0] with regs := { (image 1 6 0 1 []).regs with outCap := 4#32 } }) =
    some (0x504, 0, [0]) := by decide
/-- V-X1. -/
theorem test_illegal : results (step (base.withFetchWord 32 8)) = some (0, 0, 0x104) := by decide
/-- R11. -/
theorem test_dec : dec 109 = [0x31#8, 0x30#8, 0x39#8] := by decide
/-- R10. -/
theorem test_tdiv : tdiv (-7) 16 = 0 ∧ tdiv (-889) 16 = -55 := by decide
/-- R88. -/
theorem test_program : hostProgram params [.run (.encseg 10 1), .ack] =
    [.regWrite .word 0x10C 0x00010A21#32, .wait, .regWrite .word 0x108 0x6#32] := by decide
/-- R16, R227: the line is up once ERR is set and enabled. -/
theorem test_irq : nextIs (fun t => decide (t.hostData = 1#32)) (step { base with host := [.irqRead], regs := { Regs.reset with
    ctrl := { Regs.reset.ctrl with ieErr := true }, status := { Regs.reset.status with err := true, errcode := 7#4 } } }) =
    true := by decide
/-- R174: a run of exactly 3 is literal. -/
theorem test_rle_three : rle [0, 3, 7] [0x3F#8, 0x40#8] = [0x3F#8, 0x3F#8, 0x3F#8, 0x21#8, 0x34#8, 0x40#8] := by decide
/-- V-R2. -/
theorem test_soft_reset : nextIs (fun t => decide (t.regs = Regs.reset)) (step { image 2 2 1 1 [] with
    host := [.regWrite .word 0x104 0x1F#32] }) = true := by decide

/-! ## Witnesses: for each statement, states and operands that meet its hypotheses, for each clause at a boundary -/

/-- A command in flight on a 2 by 2 image. -/
def busyWith (w : Nat) (rest : List HostAction) : State :=
  { (image 2 2 255 1 [7, 7, 7, 7]).withFetchWord 32 w with host := rest }

/-- STATUS after a fatal error (R222). -/
def fatalStatus : Status := { busy := false, done := false, err := true, fatal := true, errcode := 3#4 }

theorem test_witness_StepRunsDecodedCommand : (busyWith 0x00020022 [.wait]).regs.status.busy = true ∧
    (busyWith 0x00020022 [.wait]).hostYields = true ∧
    decode (busyWith 0x00020022 [.wait]).regs.cmd = .ok (.encband 2) := by decide
theorem test_witness_FetchWordRunsItsCommand : decodeTableWord 32 0xFFFF0022 = some (.encband 65535) := by decide
theorem test_witness_StepRejectsIllegalWord : (busyWith 0x24 []).regs.status.busy = true ∧
    (busyWith 0x24 []).hostYields = true ∧ decode (busyWith 0x24 []).regs.cmd = .error .reservedOpcode := by decide
theorem test_witness_IllegalWords_reserved : ([0x08, 0x0F, 0x13, 0x1F, 0x24, 0xFF].all fun op =>
    (decodeTableWord 32 op).isNone) = true := by decide
theorem test_witness_IllegalWords_legal : ∀ w ∈ [0x07#32, 0x10#32, 0x12#32, 0xFFFFFF20#32, 0xFFFF0022#32, 0x23#32],
    ∃ i, decode w = .ok i := by
  intro w hw
  simp only [List.mem_cons, List.not_mem_nil, or_false] at hw
  rcases hw with rfl | rfl | rfl | rfl | rfl | rfl <;> exact ⟨_, rfl⟩
theorem test_witness_DecodeOfEncode : (Instr.sixchar 255 65535).wellFormed = true := by decide
theorem test_witness_EncodeOfDecode : decode 0xFFFFFF20#32 = .ok (.sixchar 255 65535) := by decide
theorem test_witness_HostActsInOrder_idle : (image 1 1 1 1 []).regs.status.busy = false ∧ (image 1 1 1 1 []).host = [] := by
  decide
theorem test_witness_HostActsInOrder_busy : (busyWith 0 [.memRead 0]).host = .memRead 0 :: [] ∧
    (busyWith 0 [.memRead 0]).regs.status.busy = true ∧ HostAction.memRead 0 ≠ .wait := by decide
theorem test_witness_HostActsInOrder_wait : ({ base with host := [.wait] } : State).host = .wait :: [] ∧
    ({ base with host := [.wait] } : State).regs.status.busy = false := by decide
theorem test_witness_HostActsInOrder_irq : ({ base with host := [.irqRead] } : State).host = .irqRead :: [] := rfl
theorem test_witness_HardResetEffect : (busyWith 0x12 [.hardReset]).host = .hardReset :: [] := by decide
theorem test_witness_HardResetEffect_outside : ¬ (busyWith 0x12 [.hardReset]).inFlightTarget 0x104 := by
  rintro ⟨_, _, ⟨_, _, h⟩ | ⟨h | ⟨b, h⟩ | ⟨pc, b, h⟩, _⟩⟩
  · exact absurd h (by decide)
  all_goals exact absurd (h.symm.trans (show decode (busyWith 0x12 [.hardReset]).regs.cmd = .ok .dither by decide)) (by simp)
theorem test_witness_SoftResetEffect : (busyWith 0x23 [.regWrite .word 0x104 1#32]).host =
    .regWrite .word (Params.regBase params + 0x04) 1#32 :: [] ∧ (1#32)[0] = true := by decide
theorem test_witness_StepKeepsInv : (busyWith 0x10 []).Inv := by decide
theorem test_witness_StepKeepsInv_next : nextIs (fun t => decide t.Inv) (step (busyWith 0x12 [])) = true := by decide
theorem test_witness_AccessReachesItsRegister_wait :
    let s : State := { base with host := [.wait], regs := { Regs.reset with status := fatalStatus } }
    s.host = .wait :: [] ∧ s.regs.status.busy = false ∧
      0x30C#32 = BitVec.ofNat 32 (s.regs.status.busy.toNat + 2 * s.regs.status.done.toNat + 4 * s.regs.status.err.toNat +
        8 * s.regs.status.fatal.toNat + 256 * s.regs.status.errcode.toNat) := by decide
theorem test_witness_AccessReachesItsRegister_write : (busyWith 0 [.regWrite .word 0x148 9#32]).host =
    .regWrite .word (Params.regBase params + Reg.result1.offset) 9#32 :: [] := by decide
theorem test_witness_AccessReachesItsRegister_read : (busyWith 0 [.regRead .word 0x100]).host =
    .regRead .word (Params.regBase params + Reg.id.offset) :: [] := by decide
theorem test_witness_OfferedWord_dropped_busy : (busyWith 0 [.regWrite .word 0x10C 1#32]).host =
    .regWrite .word (Params.regBase params + 0x0C) 1#32 :: [] ∧
    (busyWith 0 [.regWrite .word 0x10C 1#32]).regs.status.busy = true := by decide
theorem test_witness_OfferedWord_dropped_fatal :
    let s : State := { base with host := [.regWrite .word 0x10C 1#32], regs := { Regs.reset with status := fatalStatus } }
    s.host = .regWrite .word (Params.regBase s.params + 0x0C) 1#32 :: [] ∧ s.regs.status.fatal = true := by decide
theorem test_witness_OfferedWord_accepted :
    let s : State := { base with host := [.regWrite .word 0x10C 0xFFFFFFFF#32] }
    s.host = .regWrite .word (Params.regBase s.params + 0x0C) 0xFFFFFFFF#32 :: [] ∧
      s.regs.status.busy = false ∧ s.regs.status.fatal = false := by decide
theorem test_witness_FatalClearedOnlyByReset :
    let s : State := { base with host := [.regWrite .word 0x104 1#32], regs := { Regs.reset with status := fatalStatus } }
    s.regs.status.fatal = true ∧ nextIs (fun t => !t.regs.status.fatal) (step s) = true := by decide
theorem test_witness_FatalStays :
    let s : State := { base with host := [.regWrite .word 0x108 6#32], regs := { Regs.reset with status := fatalStatus } }
    s.regs.status.fatal = true ∧ nextIs (fun t => t.regs.status.fatal) (step s) = true := by decide
theorem test_witness_RegisterWritesWhileBusy_other : (busyWith 0 [.regWrite .word 0x10C 1#32]).regs.status.busy = true ∧
    (busyWith 0 [.regWrite .word 0x10C 1#32]).host = .regWrite .word (Params.regBase params + Reg.cmd.offset) 1#32 :: [] ∧
    Reg.cmd ≠ .ctrl ∧ Reg.cmd ≠ .status := by decide
theorem test_witness_RegisterWritesWhileBusy_ctrl : (busyWith 0 [.regWrite .word 0x104 0x1E#32]).host =
    .regWrite .word (Params.regBase params + Reg.ctrl.offset) 0x1E#32 :: [] ∧ (0x1E#32)[0] = false := by decide
theorem test_witness_RegisterWritesWhileBusy_srst : (busyWith 0 [.regWrite .word 0x104 0x1F#32]).host =
    .regWrite .word (Params.regBase params + Reg.ctrl.offset) 0x1F#32 :: [] ∧ (0x1F#32)[0] = true := by decide
theorem test_witness_RegisterWritesWhileBusy_status : (busyWith 0 [.regWrite .word 0x108 6#32]).host =
    .regWrite .word (Params.regBase params + Reg.status.offset) 6#32 :: [] := by decide
theorem test_witness_AcknowledgeClearsStatus : (busyWith 0 [.regWrite .word 0x108 6#32]).host =
    .regWrite .word (Params.regBase params + 0x08) 0x00000006#32 :: [] := by decide
theorem test_witness_AcknowledgeClearsStatus_other : ({ base with host := [.regWrite .word 0x108 0xFFFFFFF9#32] } : State).host =
    .regWrite .word (Params.regBase params + 0x08) 0xFFFFFFF9#32 :: [] := by decide
theorem test_witness_AccessesWithoutEffect_narrow : (busyWith 0 [.regWrite .byte 0x104 1#32]).host =
    .regWrite .byte (Params.regBase params + 0x04) 1#32 :: [] ∧ AccessWidth.byte ≠ .word := by decide
theorem test_witness_AccessesWithoutEffect_unaligned : (busyWith 0 [.regRead .word 0x1FF]).host =
    .regRead .word (Params.regBase params + 0xFF) :: [] ∧ 0xFF % 4 ≠ 0 ∧ 0xFF < 256 := by decide
theorem test_witness_AccessesWithoutEffect_reserved : (busyWith 0 [.regRead .word 0x14C]).host =
    .regRead .word (Params.regBase params + 0x4C) :: [] ∧ 0x4C ≤ 0x4C := by decide
theorem test_witness_WrittenRegisterReadsBack : base.regs.status.busy = false ∧
    Reg.arg1 ∈ [Reg.stride, .srcBase, .dbufBase, .outBase, .outCap, .outLen, .arg0, .arg1] ∧
    Reg.format ∈ [Reg.format, .width, .height] ∧ Reg.ncols ∈ [Reg.qstep, .ncols] ∧ (0xFFFFFFFE#32)[0] = false ∧
    Reg.result1 ∈ [Reg.id, .result0, .result1] := by decide
theorem test_witness_HostMemoryWrite_idle :
    let s : State := { base with host := [.memWrite 0xFFFF 1#8] }
    s.host = .memWrite 0xFFFF 1#8 :: [] ∧ 0xFFFF < s.memSize ∧ ¬ s.usedInFlight 0xFFFF :=
  ⟨rfl, by decide, fun h => absurd h.1 (by decide)⟩
theorem test_witness_HostMemoryWrite_outside :
    let s := busyWith 0x12 [.memWrite 0x104 1#8]
    s.host = .memWrite 0x104 1#8 :: [] ∧ 0x104 < s.memSize ∧ ¬ s.usedInFlight 0x104 := by
  refine ⟨rfl, by decide, fun h => ?_⟩
  rw [← inRunningRegion_iff] at h
  exact absurd h (by decide)
theorem test_witness_HostMemoryWrite_race :
    let s := busyWith 0x12 [.memWrite 0x103 1#8]
    s.host = .memWrite 0x103 1#8 :: [] ∧ 0x103 < s.memSize ∧ s.usedInFlight 0x103 :=
  ⟨rfl, by decide, by rw [← inRunningRegion_iff]; decide⟩
theorem test_witness_HostMemoryWrite_race_output : (busyWith 0x00010A21 []).usedInFlight 0x200 := by
  rw [← inRunningRegion_iff]; decide
theorem test_witness_HostMemoryWrite_race_source : ({ loadState with regs := { loadState.regs with
    cmd := 0x10#32, status := { Regs.reset.status with busy := true } } } : State).usedInFlight 5 := by
  rw [← inRunningRegion_iff]; decide
theorem test_witness_HostMemoryRead :
    let s : State := { base with host := [.memRead 0] }
    s.host = .memRead 0 :: [] ∧ 0 < s.memSize ∧ ¬ s.usedInFlight 0 :=
  ⟨rfl, by decide, fun h => absurd h.1 (by decide)⟩
theorem test_witness_HostMemoryRead_race :
    let s := busyWith 0x12 [.memRead 0x100]
    s.host = .memRead 0x100 :: [] ∧ 0x100 < s.memSize ∧ s.usedInFlight 0x100 :=
  ⟨rfl, by decide, by rw [← inRunningRegion_iff]; decide⟩
theorem test_witness_HostRaceSetOnlyByRacingWrite :
    nextIs (fun t => t.hostRace) (step (busyWith 0x12 [.memWrite 0x103 1#8])) = true := by decide
theorem test_witness_HostRaceNotCleared :
    nextIs (fun t => t.hostRace) (step { base with hostRace := true, host := [.hardReset] }) = true := by decide
theorem test_witness_InterruptLine : (image 1 1 1 1 []).regs.status.err = false := by decide
theorem test_witness_NopCompletes : (0x100#32 : Word) &&& 0xFF#32 = 0#32 ∧ 0x100#32 ≠ 0#32 := by decide
theorem test_witness_QselectResult : base.regs.qstep = 0#8 ∧ (image 1 1 1 1 []).regs.qstep ≠ 0#8 := by decide
theorem test_witness_SelectRoundsHalfUp : (255 ≤ 255 ∧ 1 ≤ 170 ∧ 170 ≤ 255) ∧ 2 * (127 % 255) < 255 ∧ 255 ≤ 2 * (128 % 255) := by
  decide
theorem test_witness_QuantizerErrorBound : 255 ≤ 255 ∧ 1 ≤ 255 ∧ 255 ≤ 255 := by decide
theorem test_witness_GrayidxResult : 23 = (8 * ((withArgs 249#32 0#32).regs.arg0.toNat % 256) + 42) / 85 ∧
    24 = (8 * ((withArgs 250#32 0#32).regs.arg0.toNat % 256) + 42) / 85 ∧
    (withArgs 250#32 0#32).params.grayTop = .clamp ∧
    ({ withArgs 250#32 0#32 with params := { params with grayTop := .cube } } : State).params.grayTop = .cube := by decide
theorem test_witness_GrayCandidateIsNearest : 255 ≤ 255 ∧ grayCandidate .clamp 255 = some (255, 244) := by decide
theorem test_witness_CubeidxResult : 5 = ((withArgs 0x00FF1A19#32 0#32).regs.arg0.toNat / 65536 % 256 + 25) / 51 ∧
    1 = ((withArgs 0x00FF1A19#32 0#32).regs.arg0.toNat / 256 % 256 + 25) / 51 ∧
    0 = ((withArgs 0x00FF1A19#32 0#32).regs.arg0.toNat % 256 + 25) / 51 := by decide
theorem test_witness_CdistResult : 255 = (withArgs 0xFFFF0001#32 0#32).regs.arg0.toNat / 65536 % 256 ∧
    0 = (withArgs 0xFFFF0001#32 0#32).regs.arg0.toNat / 256 % 256 ∧
    1 = (withArgs 0xFFFF0001#32 0#32).regs.arg0.toNat % 256 ∧
    0 = (withArgs 0xFFFF0001#32 0#32).regs.arg1.toNat / 65536 % 256 ∧
    0 = (withArgs 0xFFFF0001#32 0#32).regs.arg1.toNat / 256 % 256 ∧
    0 = (withArgs 0xFFFF0001#32 0#32).regs.arg1.toNat % 256 := by decide
theorem test_witness_QtruncResult_gray : grayCandidate .clamp (luma (rgbOf 0x00808080#32)) = some (244, 128) ∧
    dist2 (rgbOf 0x00808080#32) (grayColor 128) < dist2 (rgbOf 0x00808080#32) (cubeColor (rgbOf 0x00808080#32)) := by decide
theorem test_witness_QtruncResult_tie : grayCandidate .clamp (luma (rgbOf 0x00010101#32)) = some (232, 0) ∧
    dist2 (rgbOf 0x00010101#32) (cubeColor (rgbOf 0x00010101#32)) = dist2 (rgbOf 0x00010101#32) (grayColor 0) := by decide
theorem test_witness_PalreadResult_256 : ({ base with regs := { Regs.reset with
    ctrl := { Regs.reset.ctrl with palMode := true } } } : State).regs.ctrl.palMode = true := by decide
theorem test_witness_PalreadResult_empty : base.regs.ctrl.palMode = false ∧ base.regs.ncols.toNat = 0 := by decide
/-- PALREAD in gray mode with N = 3. -/
def grayLookup (i : Word) : State := { withArgs i 0#32 with regs := { (withArgs i 0#32).regs with ncols := 3#8 } }
theorem test_witness_PalreadResult_gray : (grayLookup 3#32).regs.ctrl.palMode = false ∧
    3 = (grayLookup 3#32).regs.arg0.toNat % 256 ∧ 3 = (grayLookup 3#32).regs.ncols.toNat := by decide
theorem test_witness_PalreadResult_above : (grayLookup 4#32).regs.ctrl.palMode = false ∧
    4 = (grayLookup 4#32).regs.arg0.toNat % 256 ∧ 3 = (grayLookup 4#32).regs.ncols.toNat := by decide
theorem test_witness_FixedPaletteEntries : 5 ≤ 5 ∧ 16 + 36 * 5 + 6 * 5 + 5 = 231 := by decide
theorem test_witness_FixedPaletteEntries_base : Instr.qtrunc ≠ .palread ∧
    nextIs (fun _ => true) (exec .qtrunc base) = true := by decide
theorem test_witness_LoadgrayCopiesImage : loadState.gray8 ∧ loadState.loadReady := by decide
theorem test_witness_Map256TruncatesImage : mapState.rgb8 ∧ mapState.loadReady := by decide
theorem test_witness_LoadErrors_format : ¬ (mapState.regs.channels = 1#8 ∧ mapState.regs.bits = 8#8) ∧
    ¬ (loadState.regs.channels = 3#8 ∧ loadState.regs.bits = 8#8) := by decide
/-- V-X7. -/
def overlapState : State :=
  { image 2 2 0 0 [] with regs := { (image 2 2 0 0 []).regs with stride := 2#32, srcBase := 0x100#32, dbufBase := 0x102#32 } }
theorem test_witness_LoadErrors_overlap : overlapState.gray8 ∧ overlapState.srcRegion.overlaps overlapState.dbufRegion := by
  decide
theorem test_witness_LoadErrors_empty : base.gray8 ∧ base.imgW = 0 := by decide
/-- V-X8, one byte past MEM_SIZE. -/
def pastEnd : State :=
  { image 2 2 1 1 [] with regs := { (image 2 2 1 1 []).regs with stride := 2#32, dbufBase := 0xFFFD#32 } }
theorem test_witness_LoadErrors_bus : pastEnd.gray8 ∧ pastEnd.imgW ≠ 0 ∧ pastEnd.imgH ≠ 0 ∧
    ¬ pastEnd.srcRegion.overlaps pastEnd.dbufRegion ∧
    pastEnd.memSize < pastEnd.regs.dbufBase.toNat + pastEnd.imgW * pastEnd.imgH := by decide
theorem test_witness_LoadErrors_rgb : mapState.rgb8 ∧ ({ mapState with regs := { mapState.regs with height := 0#16 } } : State).imgH = 0 := by
  decide
theorem test_witness_DitherDiffusesErrors : (image 2 2 255 1 [127, 250, 250, 250]).ditherReady := by decide
theorem test_witness_DitherErrors : (¬ mapState.gray8) ∧ (base.gray8 ∧ base.regs.qstep = 0#8) ∧
    (let s := image 0 2 1 1 []; s.gray8 ∧ s.regs.qstep ≠ 0#8 ∧ s.imgW = 0) ∧
    (pastEnd.gray8 ∧ pastEnd.regs.qstep ≠ 0#8 ∧ pastEnd.imgW ≠ 0 ∧ pastEnd.imgH ≠ 0 ∧
      pastEnd.memSize < pastEnd.regs.dbufBase.toNat + pastEnd.imgW * pastEnd.imgH) := by decide
theorem test_witness_DitherOutputRange : (image 2 2 2 1 []).ditherReady ∧ (image 2 2 2 1 []).regs.ctrl.dout = false ∧
    2 ≤ (image 2 2 2 1 []).divisor ∧ (image 2 2 255 1 []).ditherReady ∧
    (image 2 2 255 1 []).regs.ctrl.dout = false ∧ (image 2 2 255 1 []).divisor = 255 := by decide
theorem test_witness_DitherOutputRange_dout :
    let s : State := { image 2 1 170 1 [255, 255] with
      regs := { (image 2 1 170 1 []).regs with ctrl := { Regs.reset.ctrl with dout := true } } }
    s.ditherReady ∧ s.regs.ctrl.dout = true := by decide
theorem test_witness_DitherByOneIsIdentity : (image 1 3 1 1 [7, 7, 7]).ditherReady ∧ (image 1 3 1 1 []).regs.qstep = 1#8 := by
  decide
theorem test_witness_DiffusedTermsLoseAtMostThree :
    -124 = tdiv (-127 * 7) 16 + tdiv (-127 * 3) 16 + tdiv (-127 * 5) 16 + tdiv (-127 * 1) 16 := by decide
theorem test_witness_SixcharResult :
    let s := image 1 7 0 1 [0, 0, 0, 0, 0, 0, 1]
    s.maxIndex ≠ 0 ∧ 1 ≤ s.maxIndex ∧ s.imgW ≠ 0 ∧ s.imgH ≠ 0 ∧ 1 < (s.imgH + 5) / 6 ∧ s.regs.arg0.toNat < s.imgW ∧
    s.dbufRegion.hi ≤ s.memSize := by decide
theorem test_witness_EncsegAppendsSegment :
    let s := image 2 1 0 12 [10, 10]
    s.encodeReady ∧ 12 ≤ s.maxIndex ∧ 0 < s.numBands ∧ s.fits (segment s 0 12) := by decide
theorem test_witness_EncsegAppendsSegment_runs : 3 - 0 ≤ 3 ∧ 3 < 4 - 0 ∧ 1 ≤ 1 := by decide
theorem test_witness_EncbandAppendsBand :
    let s := image 1 6 0 1 [0, 0, 1, 1, 0, 0]
    s.encodeReady ∧ 0 < s.numBands ∧ s.fits ((List.range (s.maxIndex + 1)).flatMap fun pc => segment s 0 pc) := by decide
theorem test_witness_EncframeAppendsBands :
    let s := image 1 7 0 1 [0, 0, 0, 0, 0, 0, 1]
    s.encodeReady ∧ s.fits (frameBytes s) ∧ 2 ≤ s.numBands := by decide
theorem test_witness_EncoderErrors_precond : base.maxIndex = 0 ∧ (image 2 2 0 12 []).maxIndex < 13 := by decide
theorem test_witness_EncoderErrors_config :
    (let s := image 0 1 0 1 []; s.maxIndex ≠ 0 ∧ 1 ≤ s.maxIndex ∧ s.imgW = 0) ∧
    (let s := image 1 6 0 1 []; s.maxIndex ≠ 0 ∧ 1 ≤ s.maxIndex ∧ s.numBands ≤ 1) ∧
    (let s : State := { image 1 6 0 1 [] with regs := { (image 1 6 0 1 []).regs with arg0 := 1#32 } }
     s.maxIndex ≠ 0 ∧ 1 ≤ s.maxIndex ∧ s.imgW ≤ s.regs.arg0.toNat) := by decide
theorem test_witness_EncoderErrors_bus : pastEnd.maxIndex ≠ 0 ∧ 1 ≤ pastEnd.maxIndex ∧ pastEnd.imgW ≠ 0 ∧ pastEnd.imgH ≠ 0 ∧
    0 < pastEnd.numBands ∧ pastEnd.regs.arg0.toNat < pastEnd.imgW ∧ pastEnd.memSize < pastEnd.dbufRegion.hi ∧
    ¬ pastEnd.dbufRegion.overlaps pastEnd.outWindow := by decide
/-- V-X10: DBR [0x100, 0x108), OUTW [0x107, 0x147). -/
theorem test_witness_EncoderErrors_overlap :
    let s : State := { image 4 2 0 1 [] with regs := { (image 4 2 0 1 []).regs with outBase := 0x107#32 } }
    s.maxIndex ≠ 0 ∧ s.imgW ≠ 0 ∧ s.imgH ≠ 0 ∧ 0 < s.numBands ∧ s.dbufRegion.overlaps s.outWindow := by decide
theorem test_witness_EncoderErrors_overflow :
    let s : State := { image 1 6 0 1 [0, 0, 1, 1, 0, 0] with regs := { (image 1 6 0 1 []).regs with outCap := 7#32 } }
    s.encodeReady ∧ s.regs.outCap.toNat < s.regs.outLen.toNat + (bandBytes s 0).length := by decide
theorem test_witness_EdgeListShape : 1 ≤ 1 ∧ ∀ c, c < 1 → (fun _ : Nat => (0x3F#8 : Byte)) c ≠ 0#8 := by decide
theorem test_witness_SegmentLength :
    let s := image 4 1 0 1 [0, 0, 0, 0]
    4 ≤ s.imgW ∧ ∀ pc < s.maxIndex + 1, ∀ c < s.imgW, sixChar s 0 pc c = sixChar s 0 pc 0 := by decide
theorem test_witness_ValuesAboveMaxSetNoBit : (image 2 1 0 1 [5, 2]).maxIndex < (image 2 1 0 1 [5, 2]).pixel (6 * 0 + 0) 1 ∧
    1 ≤ (image 2 1 0 1 [5, 2]).maxIndex := by decide
theorem test_witness_BandsMakeTheFrame :
    let s := image 1 7 0 1 [0, 0, 0, 0, 0, 0, 1]
    s.encodeReady ∧ s.fits (frameBytes s) := by decide
theorem test_witness_EncoderReadsOnlyWorkingRegion :
    let s := image 1 1 0 1 [1]
    let u : State := { s with mem := Memory.write s.mem 0x101 9#8 }
    s.regs = u.regs ∧ s.params = u.params ∧ s.byteAt 0x100 = u.byteAt 0x100 ∧ s.dbufRegion = { lo := 0x100, hi := 0x101 } := by
  decide

end Sys2Proof.Tests
end

section
/-! PROOFS. STATUS stays legal through acceptance, completion, error and acknowledge (R23, R84, R222, R223, R226). -/
namespace Sys2Proof.Machine

/-- The clauses of a legal STATUS. -/
theorem legal_iff (st : Status) : st.legal = true ↔
    ¬ (st.done = true ∧ st.err = true) ∧ (st.err = true ↔ st.errcode ≠ 0#4) ∧ st.errcode.toNat ≤ 7 ∧
    (st.errcode = 3#4 ∨ st.errcode = 4#4 → st.fatal = true) ∧
    (st.busy = true → st.done = false ∧ st.err = false ∧ st.fatal = false) := by
  have herrcode : (st.err == (st.errcode != 0#4)) = true ↔ (st.err = true ↔ st.errcode ≠ 0#4) := by
    rw [beq_iff_eq, Bool.eq_iff_iff, bne_iff_ne]
  simp only [Status.legal, Bool.and_eq_true, herrcode, and_assoc]
  simp [imp_iff_not_or, and_assoc]

/-- An accepted word leaves nothing but BUSY set (R84). -/
theorem accept_legal {st : Status} (hfatal : st.fatal = false) : st.accept.legal = true := by
  simp [legal_iff, Status.accept, hfatal]

/-- A command in flight completes into a legal STATUS, for nothing but BUSY was set (R223). -/
theorem complete_legal {st : Status} (h : st.legal = true) (hbusy : st.busy = true) : st.complete.legal = true := by
  obtain ⟨-, hcode, hrange, hfatal, hflight⟩ := (legal_iff st).mp h
  obtain ⟨-, herr, -⟩ := hflight hbusy
  exact (legal_iff _).mpr ⟨by simp [Status.complete, herr], hcode, hrange, hfatal, by simp [Status.complete]⟩

/-- An error leaves a legal STATUS, whatever it was before (R222). -/
theorem fail_legal (st : Status) (e : CmdError) : (st.fail e).legal = true := by
  rw [legal_iff]
  cases e <;> simp [Status.fail, CmdError.code, CmdError.fatal]

/-- ERR leaves together with ERRCODE, so that an acknowledge keeps STATUS legal (R226). -/
theorem acknowledge_legal {st : Status} (clearDone clearErr : Bool) (h : st.legal = true) :
    (st.acknowledge clearDone clearErr).legal = true := by
  obtain ⟨hexcl, hcode, hrange, hfatal, hflight⟩ := (legal_iff st).mp h
  refine (legal_iff _).mpr ⟨fun hboth => hexcl ?_, ?_, ?_, ?_, fun hbusy => ?_⟩
  · exact ⟨(Bool.and_eq_true_iff.mp hboth.1).1, (Bool.and_eq_true_iff.mp hboth.2).1⟩
  · cases clearErr
    · simpa [Status.acknowledge] using hcode
    · simp [Status.acknowledge]
  · cases clearErr
    · exact hrange
    · simp [Status.acknowledge]
  · cases clearErr
    · exact hfatal
    · simp [Status.acknowledge]
  · obtain ⟨hdone, herr, hnofatal⟩ := hflight hbusy
    simp [Status.acknowledge, hdone, herr, hnofatal]

end Sys2Proof.Machine
end

section
/-! PROOFS. What the effect of a command leaves alone, and that it keeps engine memory canonical (R60, R221, R223). -/
namespace Sys2Proof.Machine

/-- `u` is `s` after the effect of a command, before its completion: of the registers at most the results and OUT_LEN are
new, memory stays canonical, and nothing else but memory has changed (R48, R60). -/
structure Effect (s u : State) : Prop where
  frame : u = { s with mem := u.mem, regs := { s.regs with
    result0 := u.regs.result0, result1 := u.regs.result1, outLen := u.regs.outLen } }
  keepsWf : Memory.wf s.memSize s.mem = true → Memory.wf s.memSize u.mem = true

namespace Effect
variable {s u : State}

theorem status_eq (h : Effect s u) : u.regs.status = s.regs.status := by rw [h.frame]
theorem params_eq (h : Effect s u) : u.params = s.params := by rw [h.frame]

/-- No effect is an effect. -/
theorem refl : Effect s s := ⟨rfl, id⟩

theorem setResult0 (v : Word) (h : Effect s u) : Effect s (u.setResult0 v) :=
  ⟨by rw [h.frame]; rfl, h.keepsWf⟩

theorem setResult1 (v : Word) (h : Effect s u) : Effect s (u.setResult1 v) :=
  ⟨by rw [h.frame]; rfl, h.keepsWf⟩

theorem setOutLen (v : Word) (h : Effect s u) : Effect s (u.setOutLen v) :=
  ⟨by rw [h.frame]; rfl, h.keepsWf⟩

theorem setMem {m : Memory} (h : Memory.wf s.memSize s.mem = true → Memory.wf s.memSize m = true) :
    Effect s (s.setMem m) := ⟨rfl, h⟩

end Effect

/-- The command whose checks and effect are `r`, from `s`, has an effect if it has no error. -/
def Affects (s : State) (r : Except CmdError State) : Prop := ∀ u, r = .ok u → Effect s u

namespace Affects
variable {s : State}

theorem ok {u : State} (h : Effect s u) : Affects s (.ok u) := fun _ hu => by cases hu; exact h

theorem error (e : CmdError) : Affects s (.error e) := fun _ hu => by cases hu

/-- Past a check, its condition is known to fail. -/
theorem check {c : Prop} [Decidable c] {e : CmdError} {k : Except CmdError State} (h : ¬ c → Affects s k) :
    Affects s (if c then .error e else k) := fun u hu => h (check_ok.mp hu).1 u (check_ok.mp hu).2

/-- Past the checks of LOADGRAY and MAP256 the working region lies in memory (R141, R142). -/
theorem checkLoad {k : Except CmdError State} (h : s.dbufRegion.hi ≤ s.memSize → Affects s k) :
    Affects s (checkLoad s k) :=
  check fun _ => check fun _ => check fun hbus => h (Nat.not_lt.mp (not_or.mp hbus).2)

/-- Past the checks of the encoder the output window lies in memory (R180 to R182). -/
theorem checkEncoder {k : Except CmdError State} (h : s.outWindow.hi ≤ s.memSize → Affects s k) :
    Affects s (checkEncoder s k) :=
  check fun _ => check fun hbus => h (Nat.not_lt.mp (not_or.mp hbus).2)

/-- An append stays in the output window (R178). -/
theorem appendOutput (out : List Byte) (hwin : s.outWindow.hi ≤ s.memSize) : Affects s (appendOutput s out) := by
  rcases appendOutput_cases s out with ⟨-, happend⟩ | ⟨hfits, happend⟩
  · exact happend ▸ error _
  · have hend : s.regs.outBase.toNat + s.regs.outLen.toNat + out.length ≤ s.memSize := by
      simp only [State.outWindow] at hwin
      omega
    exact happend ▸ ok (.setOutLen _ (.setMem (wf_writeBytes out _ hend)))

/-- A loop over the image whose pixels keep memory canonical has an effect (R147). -/
theorem pixels {f : Nat → Nat → Memory → Memory} (h : ∀ r c m, r < s.imgH → c < s.imgW →
    Memory.wf s.memSize m = true → Memory.wf s.memSize (f r c m) = true) :
    Affects s (.ok (s.setMem (forEachPixel s.imgH s.imgW f s.mem))) :=
  ok (.setMem fun hm => forEachPixel_keeps (fun m => Memory.wf s.memSize m = true) _ _ f s.mem hm h)

end Affects

/-- A neighbour's term keeps memory canonical when a neighbour inside the image lies in memory (R145, R146). -/
theorem wf_addSatIf {size : Nat} {inside : Prop} [Decidable inside] {m : Memory} {a : Nat} (t : Int)
    (ha : inside → a < size) (h : Memory.wf size m = true) : Memory.wf size (addSatIf inside m a t) = true := by
  unfold addSatIf
  split
  · next hin => exact wf_write _ _ (ha hin) h
  · exact h

/-- One pixel of DITHER writes its own byte and those of neighbours inside the image (R143, R145). -/
theorem wf_ditherPixel {s : State} (hdbuf : s.dbufRegion.hi ≤ s.memSize) {r c : Nat} {m : Memory} (hr : r < s.imgH)
    (hc : c < s.imgW) (h : Memory.wf s.memSize m = true) : Memory.wf s.memSize (ditherPixel s r c m) = true := by
  have inside : ∀ {r' c'}, r' < s.imgH → c' < s.imgW → s.dbufAddr r' c' < s.memSize := fun hr' hc' =>
    (dbufAddr_lt s hr' hc').trans_le hdbuf
  have below : s.dbufAddr (r + 1) c = s.dbufAddr r c + s.imgW := by
    simp only [State.dbufAddr, Nat.succ_mul]
    omega
  unfold ditherPixel diffuse
  refine wf_addSatIf _ (fun hn => ?_) <| wf_addSatIf _ (fun hn => ?_) <| wf_addSatIf _ (fun hn => ?_) <|
    wf_addSatIf _ (fun hn => ?_) <| wf_write _ _ (inside hr hc) h
  · exact below ▸ inside hn.1 hn.2
  · exact below ▸ inside hn hc
  · have := inside hn.1 hc
    omega
  · exact inside hr hn

/-- Every command ends through `finish`, and what it answers there without an error is an effect (R221, R223). -/
theorem exec_affects (i : Instr) (s : State) : ∃ r, exec i s = finish s r ∧ Affects s r := by
  cases i with
  | nop => exact ⟨.ok s, rfl, .ok .refl⟩
  | qselect => exact ⟨_, rfl, .check fun _ => .ok (.setResult1 _ (.setResult0 _ .refl))⟩
  | luma => exact ⟨.ok _, rfl, .ok (.setResult0 _ .refl)⟩
  | grayidx =>
    refine ⟨_, rfl, ?_⟩
    split
    · exact .ok (.setResult1 _ (.setResult0 _ .refl))
    · exact .ok (.setResult1 _ (.setResult0 _ .refl))
  | cubeidx => exact ⟨.ok _, rfl, .ok (.setResult1 _ (.setResult0 _ .refl))⟩
  | cdist => exact ⟨.ok _, rfl, .ok (.setResult0 _ .refl)⟩
  | qtrunc => exact ⟨.ok _, rfl, .ok (.setResult1 _ (.setResult0 _ .refl))⟩
  | palread =>
    refine ⟨_, rfl, ?_⟩
    split
    · exact .ok (.setResult0 _ .refl)
    · exact .check fun _ => .check fun _ => .ok (.setResult0 _ .refl)
  | loadgray =>
    exact ⟨_, rfl, .check fun _ => .checkLoad fun hdbuf => .pixels fun _ _ _ hr hc =>
      wf_write _ _ ((dbufAddr_lt s hr hc).trans_le hdbuf)⟩
  | map256 =>
    exact ⟨_, rfl, .check fun _ => .checkLoad fun hdbuf => .pixels fun _ _ _ hr hc =>
      wf_write _ _ ((dbufAddr_lt s hr hc).trans_le hdbuf)⟩
  | dither =>
    exact ⟨_, rfl, .check fun _ => .check fun _ => .check fun _ => .check fun hbus => .pixels fun _ _ _ =>
      wf_ditherPixel (Nat.not_lt.mp hbus)⟩
  | sixchar pc b =>
    exact ⟨_, rfl, .check fun _ => .check fun _ => .check fun _ => .check fun _ =>
      .ok (.setResult1 _ (.setResult0 _ .refl))⟩
  | encseg pc b =>
    exact ⟨_, rfl, .check fun _ => .check fun _ => .checkEncoder fun hwin => .check fun _ => .appendOutput _ hwin⟩
  | encband b =>
    exact ⟨_, rfl, .check fun _ => .check fun _ => .checkEncoder fun hwin => .check fun _ => .appendOutput _ hwin⟩
  | encframe =>
    exact ⟨_, rfl, .check fun _ => .check fun _ => .checkEncoder fun hwin => .check fun _ => .appendOutput _ hwin⟩

/-- A command ends with an error and only STATUS changed, or completed with its effect (R221 to R223). -/
theorem exec_cases {i : Instr} {s t : State} (h : exec i s = .next t) :
    (∃ e, t = errorState s e) ∨ (∃ u, Effect s u ∧ t = u.complete) := by
  obtain ⟨r, hexec, haffects⟩ := exec_affects i s
  rcases finish_cases s r with ⟨u, hr, hend⟩ | ⟨e, hr, hend⟩
  · exact .inr ⟨u, haffects u hr, by simpa [h, hend] using hexec⟩
  · exact .inl ⟨e, by simpa [h, hend] using hexec⟩

end Sys2Proof.Machine
end

section
/-! PROOFS. The invariant of the machine through every step (R60, R84, R222). -/
namespace Sys2Proof.Machine

/-- `t` meets the invariant and has the parameters of `s`. -/
def InvFrom (s t : State) : Prop := t.Inv ∧ t.params = s.params

/-- An error changes STATUS only, to a legal one (R221, R222). -/
theorem errorState_invFrom {s : State} (h : s.Inv) (e : CmdError) : InvFrom s (errorState s e) := by
  rw [← raiseError_eq_errorState]
  exact ⟨⟨h.1, fail_legal _ e⟩, rfl⟩

/-- A command taken in flight keeps the invariant (R222, R223). -/
theorem exec_invFrom {i : Instr} {s t : State} (h : s.Inv) (hbusy : s.regs.status.busy = true)
    (hexec : exec i s = .next t) : InvFrom s t := by
  obtain ⟨hwf, hlegal⟩ := id h
  rcases exec_cases hexec with ⟨e, rfl⟩ | ⟨u, heffect, rfl⟩
  · exact errorState_invFrom h e
  · refine ⟨⟨?_, ?_⟩, heffect.params_eq⟩
    · have hsize : u.complete.memSize = s.memSize := congrArg Params.memSize heffect.params_eq
      rw [hsize]
      exact heffect.keepsWf hwf
    · rw [complete_regs, heffect.status_eq]
      exact complete_legal hlegal hbusy

/-- The bytes an abandoned command could write lie below MEM_SIZE (R251). -/
theorem abandonedRegion_hi_le (s : State) : s.abandonedRegion.hi ≤ s.memSize := by
  unfold State.abandonedRegion
  split
  · exact Nat.min_le_right _ _
  · exact Nat.zero_le _

/-- Abandoning a command keeps memory canonical (R251). -/
theorem abandon_wf {s : State} (h : Memory.wf s.memSize s.mem = true) :
    Memory.wf s.memSize s.abandon.mem = true := by
  unfold State.abandon
  split
  · exact wf_fillFree _ _ (abandonedRegion_hi_le s) h
  · exact h

/-- A reset keeps the invariant: STATUS is 0 and memory stays canonical (R250 to R252). -/
theorem resetBlock_invFrom {s : State} (h : s.Inv) : InvFrom s s.resetBlock := by
  have hsize : s.resetBlock.memSize = s.memSize := congrArg Params.memSize (resetBlock_params s)
  refine ⟨⟨?_, rfl⟩, resetBlock_params s⟩
  rw [hsize]
  exact abandon_wf h.1

/-- A store to a plain register leaves STATUS alone (R25 to R37). -/
theorem store_status (k : Regs) (reg : Reg) (v : Word) : (k.store reg v).status = k.status := by
  cases reg <;> rfl

/-- A register write keeps the invariant: CTRL and the stored registers do not touch STATUS, an acknowledge and an
accepted word leave it legal (R84, R226, R254). -/
theorem writeReg_invFrom {s : State} (h : s.Inv) (reg : Reg) (v : Word) : InvFrom s (s.writeReg reg v) := by
  obtain ⟨hwf, hlegal⟩ := id h
  rcases writeReg_cases s reg v with hw | ⟨-, hw⟩ | hw | hw | hw | ⟨-, hfatal, hw⟩ <;> rw [hw]
  · exact ⟨h, rfl⟩
  · refine ⟨⟨hwf, ?_⟩, rfl⟩
    rw [store_status]
    exact hlegal
  · exact resetBlock_invFrom h
  · exact ⟨⟨hwf, hlegal⟩, rfl⟩
  · exact ⟨⟨hwf, acknowledge_legal _ _ hlegal⟩, rfl⟩
  · exact ⟨⟨hwf, accept_legal hfatal⟩, rfl⟩

/-- A host action that goes on keeps the invariant (R60, R62, R67). -/
theorem hostAct_invFrom {x : HostAction} {s t : State} (h : s.Inv) (hact : hostAct x s = .next t) : InvFrom s t := by
  obtain ⟨hwf, hlegal⟩ := id h
  rcases hostAct_cases hact with rfl | ⟨v, rfl⟩ | ⟨reg, v, rfl⟩ | rfl | ⟨a, v, -, ha, -, rfl⟩ | ⟨a, v, -, ha, -, rfl⟩ |
    ⟨a, -, -, -, rfl⟩
  · exact ⟨h, rfl⟩
  · exact ⟨h, rfl⟩
  · exact writeReg_invFrom h reg v
  · exact resetBlock_invFrom h
  · exact ⟨⟨wf_write a _ ha hwf, hlegal⟩, rfl⟩
  · exact ⟨⟨wf_write a _ ha hwf, hlegal⟩, rfl⟩
  · exact ⟨h, rfl⟩

/-- Settles O13, by what a step can be: a command, an illegal word, a host action, or waiting. -/
theorem stepKeepsInv : Obligations.StepKeepsInv := by
  unfold Obligations.StepKeepsInv
  intro s t h hstep
  rcases step_cases hstep with ⟨i, hbusy, -, -, hexec⟩ | ⟨e, -, -, -, rfl⟩ | ⟨x, rest, -, hact⟩ | ⟨-, -, rfl⟩
  · exact exec_invFrom h hbusy hexec
  · exact errorState_invFrom h .illegalCmd
  · exact hostAct_invFrom (s := { s with host := rest }) h hact
  · exact ⟨h, rfl⟩

end Sys2Proof.Machine
end

section
/-! PROOFS. The edge scan (R172): chunks of lanes make one scan, and its list passes the engine's check (R173). -/
namespace Sys2Proof.Machine

/-- The chunks `0, k, …, (n-1)*k` scan the first `n*k` columns of the row, or all of them (R172). -/
theorem scanChunks_eq_columns (ch : Nat → Byte) (k w : Nat) (x : EdgeScan) : ∀ n,
    forUpTo n (fun i => scanChunk ch k w (i * k)) x = forUpTo (min (n * k) w) (scanColumn ch) x
  | 0 => by simp [forUpTo]
  | n + 1 => by
    rw [forUpTo, scanChunks_eq_columns ch k w x n, scanChunk, Nat.succ_mul]
    rcases Nat.le_total (n * k) w with hn | hn
    · rw [Nat.min_eq_left hn, ← forUpTo_add]
      congr 1
      omega
    · have hempty : min (n * k + k) w - n * k = 0 := by omega
      rw [hempty, forUpTo, Nat.min_eq_right hn, Nat.min_eq_right (Nat.le_add_right_of_le hn)]

/-- Whatever the number of lanes, the scan visits the columns one after the other (R172). -/
theorem scanRow_eq_columns (ch : Nat → Byte) {k : Nat} (w : Nat) (hk : 1 ≤ k) :
    scanRow ch k w = forUpTo w (scanColumn ch) { carry := 0x00#8, pos := [], val := [] } := by
  have hcover : w ≤ (w + k - 1) / k * k := by
    have hdiv := Nat.div_add_mod (w + k - 1) k
    have hmod := Nat.mod_lt (w + k - 1) hk
    rw [Nat.mul_comm] at hdiv
    omega
  rw [scanRow, scanChunks_eq_columns, Nat.min_eq_right hcover]

/-- Settles O54: for each lane width the scan is the scan column by column. -/
theorem edgeListIndependentOfLanes : Obligations.EdgeListIndependentOfLanes := by
  unfold Obligations.EdgeListIndependentOfLanes
  intro ch k w hk
  unfold edges
  rw [scanRow_eq_columns ch w hk, scanRow_eq_columns ch w le_rfl]

/-- The scan has as many characters as positions. -/
def EdgeScan.paired (e : EdgeScan) : Prop := e.val.length = e.pos.length

/-- A column adds a position and its character, or neither (R172). -/
theorem scanColumn_paired (ch : Nat → Byte) (c : Nat) {e : EdgeScan} (h : e.paired) :
    (scanColumn ch c e).paired := by
  unfold scanColumn
  split
  · exact h
  · simpa [EdgeScan.paired] using h

/-- The scan of a row stays paired through its chunks and their columns (R172). -/
theorem scanRow_paired (ch : Nat → Byte) (k w : Nat) : (scanRow ch k w).paired :=
  forUpTo_induct (fun _ => EdgeScan.paired) _ _ _ rfl fun _ e _ he =>
    forUpTo_induct (fun _ => EdgeScan.paired) _ _ e he fun _ _ _ => scanColumn_paired ch _

/-- Every edge list passes the engine's check, so that INTERNAL is never raised (R173, R231). -/
theorem edges_consistent (ch : Nat → Byte) (k w : Nat) : EdgeList.consistent w (edges ch k w) := by
  have hpaired : (scanRow ch k w).val.length = (scanRow ch k w).pos.length := scanRow_paired ch k w
  exact ⟨by simp [edges, hpaired], by simp [edges]⟩

end Sys2Proof.Machine
end

section
/-! PROOFS. Decimal numbers (R11), runs (R174), and ENCSEG (R180). -/
namespace Sys2Proof.Machine

/-- With fuel above `n` the loop puts the digits of `n` before those collected (R11). -/
theorem decDigits_eq_digits : ∀ (fuel n : Nat) (acc : List Byte), 1 ≤ n → n < fuel →
    decDigits fuel n acc = (Nat.digits 10 n).reverse.map digitByte ++ acc
  | 0, _, _, _, hfuel => by omega
  | fuel + 1, n, acc, hn, hfuel => by
    unfold decDigits
    split
    · next hlt => rw [Nat.digits_of_lt 10 n (by omega) hlt]; rfl
    · next hge =>
      rw [decDigits_eq_digits fuel (n / 10) _ (by omega) (by omega), Nat.digits_def' (by omega) hn]
      simp

/-- A number but 0 is written in its decimal digits, the highest first (R11). -/
theorem dec_eq_digits {n : Nat} (hn : 1 ≤ n) : dec n = (Nat.digits 10 n).reverse.map digitByte := by
  rw [dec, decDigits_eq_digits _ _ _ hn (Nat.lt_succ_self n), List.append_nil]

/-- Only the digit 0 is written as '0' (R9). -/
theorem digitByte_eq_zero {d : Nat} (hd : d < 10) (h : digitByte d = 0x30#8) : d = 0 := by
  have hnat := congrArg BitVec.toNat h
  simp only [digitByte, BitVec.toNat_ofNat] at hnat
  omega

/-- A number but 0 has no leading zero (R11). -/
theorem dec_head_ne_zero {n : Nat} (hn : 1 ≤ n) : (dec n).head? ≠ some 0x30#8 := by
  rw [dec_eq_digits hn, List.head?_map, List.head?_reverse]
  intro h
  obtain ⟨d, hlast, hd⟩ := Option.map_eq_some_iff.mp h
  have hlt : d < 10 := Nat.digits_lt_base (by omega) (List.mem_of_getLast? hlast)
  have hne : Nat.digits 10 n ≠ [] := Nat.digits_ne_nil_iff_ne_zero.mpr (by omega)
  rw [List.getLast?_eq_some_getLast hne, Option.some.injEq] at hlast
  exact Nat.getLast_digit_ne_zero 10 (by omega) (hlast.trans (digitByte_eq_zero hlt hd))

/-- A run of up to 3 is literal (R174). -/
theorem runBytes_literal {len : Nat} (v : Byte) (h : len ≤ 3) : runBytes len v = List.replicate len v := if_pos h

/-- A longer run is '!', its length and its character (R174). -/
theorem runBytes_counted {len : Nat} (v : Byte) (h : 3 < len) : runBytes len v = [0x21#8] ++ dec len ++ [v] :=
  if_neg (Nat.not_le.mpr h)

/-- The run data begins with its first run (R174). -/
theorem rle_cons (p q : Nat) (ps : List Nat) (v : Byte) (vs : List Byte) :
    rle (p :: q :: ps) (v :: vs) = runBytes (q - p) v ++ rle (q :: ps) vs := rfl

/-- ENCSEG past its checks appends its segment (R180): its edge list is always consistent. -/
theorem execEncseg_appends {s : State} {pc b : Nat} (hready : s.encodeReady) (hpc : pc ≤ s.maxIndex)
    (hb : b < s.numBands) (hfits : s.fits (segment s b pc)) :
    ∃ t, exec (.encseg pc b) s = .next t ∧ appended s t (segment s b pc) := by
  obtain ⟨hmax, hw, hh, -⟩ := id hready
  have hedges : EdgeList.consistent s.imgW (bandEdges s b pc) := edges_consistent _ _ _
  rcases appendOutput_cases s (segment s b pc) with ⟨hover, -⟩ | ⟨-, happend⟩
  · exact absurd hfits hover
  · refine ⟨_, ?_, appended_of_fits hfits⟩
    change execEncseg pc b s = _
    unfold execEncseg
    rw [if_neg (not_or.mpr ⟨hmax, Nat.not_lt.mpr hpc⟩),
      if_neg (not_or.mpr ⟨not_or.mpr ⟨hw, hh⟩, Nat.not_le.mpr hb⟩), checkEncoder_of_ready hready,
      if_neg (not_not.mpr hedges), happend, finish_ok]

/-- Settles O50, from the append, the two forms of a run, and the digits of a number. -/
theorem encsegAppendsSegment : Obligations.EncsegAppendsSegment := by
  unfold Obligations.EncsegAppendsSegment
  refine ⟨fun s pc b hready hpc hb hfits => ⟨execEncseg_appends hready hpc hb hfits, ?_⟩,
    fun p q ps v vs => ⟨fun h => ?_, fun h => ?_, rfl⟩, rfl, fun n hn => ⟨dec_eq_digits hn, dec_head_ne_zero hn⟩⟩
  · simp [segment]
  · rw [rle_cons, runBytes_literal v h]
  · rw [rle_cons, runBytes_counted v h]

end Sys2Proof.Machine
end

section
/-! PROOFS. Whose turn a step is (R259, log 1). -/
namespace Sys2Proof.Machine

/-- A host with an action left yields exactly when that action is a wait (R88). -/
theorem hostYields_cons {s : State} {x : HostAction} {rest : List HostAction} (h : s.host = x :: rest) :
    s.hostYields = true ↔ x = .wait := by
  unfold State.hostYields
  rw [h]
  cases x <;> simp

/-- The host's next action is the step, unless it waits while a command is in flight (log 1). -/
theorem step_host {s : State} {x : HostAction} {rest : List HostAction} (h : s.host = x :: rest)
    (hturn : s.regs.status.busy = false ∨ x ≠ .wait) : step s = hostAct x { s with host := rest } := by
  have hnot : ¬ (s.regs.status.busy && s.hostYields) = true := by
    rw [Bool.and_eq_true, hostYields_cons h]
    rcases hturn with hb | hx
    · simp [hb]
    · exact fun hc => hx hc.2
  have hhost : s.turn = .host x rest := by
    unfold State.turn
    rw [if_neg hnot, h]
  unfold step
  rw [hhost]

/-- With no host action left and no command in flight the block waits (R230, R250). -/
theorem step_idle {s : State} (h : s.host = []) (hb : s.regs.status.busy = false) : step s = .next s := by
  have hidle : s.turn = .idle := by
    unfold State.turn
    rw [hb, h]
    rfl
  unfold step
  rw [hidle]

/-- The word for the interrupt line's level, by the bits that raise it (R227). -/
theorem irqLevel_eq (s : State) : s.irqLevel =
    if (s.regs.status.done ∧ s.regs.ctrl.ieDone) ∨ (s.regs.status.err ∧ s.regs.ctrl.ieErr) then 1#32 else 0#32 := by
  simp [State.irqLevel, State.irq]

/-- Settles O8, by whose turn the step is. -/
theorem hostActsInOrder : Obligations.HostActsInOrder := by
  unfold Obligations.HostActsInOrder
  refine ⟨fun s x rest h hturn => step_host h hturn, fun s h hb => step_idle h hb, fun s rest h => ?_⟩
  rw [step_host h (.inr (by simp)), ← irqLevel_eq]
  rfl

end Sys2Proof.Machine
end

section
/-! PROOFS. The host's register accesses: which register an access reaches, and what it reads or writes there
(R20 to R40, R62). -/
namespace Sys2Proof.Machine

/-- A platform address within 256 bytes of REG_BASE has its offset in the block (R20, R73). -/
theorem blockOffset_regBase_add (p : Params) {off : Nat} (hoff : off < 256) :
    Params.blockOffset p (Params.regBase p + off) = some off := by
  simp [Params.blockOffset, hoff]

/-- Every register lies at an aligned offset below 0x4C (R20). -/
theorem offset_place (reg : Reg) : reg.offset % 4 = 0 ∧ reg.offset < 0x4C := by
  cases reg <;> decide

/-- The registers stand at the offsets of R20. -/
theorem regAt_offset (reg : Reg) : regAt reg.offset = some reg := by
  cases reg <;> rfl

/-- An offset reaches a register only where that register stands (R20, R40). -/
theorem eq_offset_of_regAt {off : Nat} {reg : Reg} (h : regAt off = some reg) : off = reg.offset := by
  unfold regAt at h
  split at h <;> cases h <;> rfl

/-- A narrow or unaligned access, and one at a reserved offset, reaches no register (R40, R62). -/
theorem accessedReg_eq_none {width : AccessWidth} {off : Nat} (h : width ≠ .word ∨ off % 4 ≠ 0 ∨ 0x4C ≤ off) :
    accessedReg width off = none := by
  cases width with
  | byte => rfl
  | half => rfl
  | word =>
    refine Option.eq_none_iff_forall_ne_some.mpr fun reg hreg => ?_
    obtain ⟨haligned, hbelow⟩ := offset_place reg
    rw [eq_offset_of_regAt hreg] at h
    rcases h with hwidth | hunaligned | hreserved
    · exact hwidth rfl
    · exact hunaligned haligned
    · omega

/-- A host write in the block is the write of the register it reaches, if any (R40, R62). -/
theorem step_regWrite {s : State} {width : AccessWidth} {off : Nat} {v : Word} {rest : List HostAction}
    (h : s.host = .regWrite width (Params.regBase s.params + off) v :: rest) (hoff : off < 256) :
    step s = .next ((accessedReg width off).elim { s with host := rest }
      fun reg => State.writeReg { s with host := rest } reg v) := by
  rw [step_host h (.inr (by simp))]
  simp only [hostAct, hostRegWrite, blockOffset_regBase_add s.params hoff]
  cases accessedReg width off <;> rfl

/-- A host read in the block returns the register it reaches, or 0, and changes nothing else (R40, R62, R68). -/
theorem step_regRead {s : State} {width : AccessWidth} {off : Nat} {rest : List HostAction}
    (h : s.host = .regRead width (Params.regBase s.params + off) :: rest) (hoff : off < 256) :
    step s = .next { s with host := rest, hostData := (accessedReg width off).elim 0#32 s.readReg } := by
  rw [step_host h (.inr (by simp))]
  simp only [hostAct, hostRegRead, blockOffset_regBase_add s.params hoff]
  cases accessedReg width off <;> rfl

/-- An aligned 32-bit write at a register's offset writes it (R62). -/
theorem step_writeReg {s : State} {reg : Reg} {v : Word} {rest : List HostAction}
    (h : s.host = .regWrite .word (Params.regBase s.params + reg.offset) v :: rest) :
    step s = .next (State.writeReg { s with host := rest } reg v) := by
  rw [step_regWrite h ((offset_place reg).2.trans (by decide)), accessedReg, regAt_offset]
  rfl

/-- An aligned 32-bit read at a register's offset returns it (R62). -/
theorem step_readReg {s : State} {reg : Reg} {rest : List HostAction}
    (h : s.host = .regRead .word (Params.regBase s.params + reg.offset) :: rest) :
    step s = .next { s with host := rest, hostData := s.readReg reg } := by
  rw [step_regRead h ((offset_place reg).2.trans (by decide)), accessedReg, regAt_offset]
  rfl

/-- Settles O19: such an access reaches no register. -/
theorem accessesWithoutEffect : Obligations.AccessesWithoutEffect := by
  unfold Obligations.AccessesWithoutEffect
  intro s width off v rest hoff hnone
  refine ⟨fun h => ?_, fun h => ?_⟩
  · rw [step_regWrite h hoff, accessedReg_eq_none hnone]
    rfl
  · rw [step_regRead h hoff, accessedReg_eq_none hnone]
    rfl

/-- A bit's weight at its place. -/
theorem bitAt_eq (b : Bool) (i : Nat) : bitAt b i = 2 ^ i * b.toNat := by
  cases b <;> simp [bitAt]

/-- CTRL with its bits at their places (R22). -/
theorem ctrl_word_eq (c : Ctrl) : c.word =
    BitVec.ofNat 32 (2 * c.ieDone.toNat + 4 * c.ieErr.toNat + 8 * c.dout.toNat + 16 * c.palMode.toNat) := by
  simp [Ctrl.word, bitAt_eq]

/-- STATUS with its bits at their places (R23). -/
theorem status_word_eq (st : Status) : st.word =
    BitVec.ofNat 32 (st.busy.toNat + 2 * st.done.toNat + 4 * st.err.toNat + 8 * st.fatal.toNat +
      256 * st.errcode.toNat) := by
  simp [Status.word, bitAt_eq, Nat.mul_comm st.errcode.toNat]

/-- FORMAT with CHANNELS below BITS (R25). -/
theorem readReg_format (s : State) :
    s.readReg .format = BitVec.ofNat 32 (s.regs.channels.toNat + 256 * s.regs.bits.toNat) := by
  rw [Nat.mul_comm]
  rfl

/-- Settles O14: each row of the register map names a register's offset and the word it reads as. -/
theorem accessReachesItsRegister : Obligations.AccessReachesItsRegister := by
  unfold Obligations.AccessReachesItsRegister
  rintro s v rest k ctrlWord statusWord rfl rfl rfl
  refine ⟨fun reg off word hrow => ?_, fun hwait hidle => ?_⟩
  · have hreg : off = reg.offset ∧ word = s.readReg reg := by
      cases reg
      case ctrl => simpa [ctrl_word_eq, Reg.offset, State.readReg] using hrow
      case status => simpa [status_word_eq, Reg.offset, State.readReg] using hrow
      case format => simpa [readReg_format, Reg.offset] using hrow
      all_goals simpa [Reg.offset, State.readReg, Config.idValue] using hrow
    obtain ⟨rfl, rfl⟩ := hreg
    exact ⟨step_writeReg, step_readReg⟩
  · rw [step_host hwait (.inl hidle), ← status_word_eq]
    rfl

end Sys2Proof.Machine
end

section
/-! PROOFS. What a write to STATUS clears (R23, R226), and how FATAL is cleared (R225). -/
namespace Sys2Proof.Machine

/-- A written 1 clears DONE, or ERR with ERRCODE (R23). -/
theorem status_acknowledge_eq (st : Status) (clearDone clearErr : Bool) : st.acknowledge clearDone clearErr =
    { st with
      done := if clearDone then false else st.done
      err := if clearErr then false else st.err
      errcode := if clearErr then 0#4 else st.errcode } := by
  cases clearDone <;> cases clearErr <;> simp [Status.acknowledge]

/-- The line is low with neither DONE nor ERR (R227). -/
theorem irq_of_clear {s : State} (hdone : s.regs.status.done = false) (herr : s.regs.status.err = false) :
    s.irq = false := by
  simp [State.irq, hdone, herr]

/-- Settles O18: the write is an acknowledge, and 0x00000006 has both bits. -/
theorem acknowledgeClearsStatus : Obligations.AcknowledgeClearsStatus := by
  unfold Obligations.AcknowledgeClearsStatus
  intro s v rest h
  have hstep : step s = .next (State.acknowledge { s with host := rest } v) := step_writeReg (reg := .status) h
  have hack : State.acknowledge { s with host := rest } v = { s with host := rest, regs := { s.regs with
      status := { s.regs.status with
        done := if v[1] then false else s.regs.status.done
        err := if v[2] then false else s.regs.status.err
        errcode := if v[2] then 0#4 else s.regs.status.errcode } } } := by
    rw [← status_acknowledge_eq]
    rfl
  rw [hstep, hack]
  refine ⟨rfl, ?_⟩
  rintro rfl
  exact ⟨_, rfl, irq_of_clear rfl rfl, rfl⟩

/-- An error never clears FATAL (R222). -/
theorem errorState_fatal {s : State} (h : s.regs.status.fatal = true) (e : CmdError) :
    (errorState s e).regs.status.fatal = true := by
  simp [errorState, h]

/-- A command never clears FATAL (R222, R223). -/
theorem exec_fatal {i : Instr} {s t : State} (h : s.regs.status.fatal = true) (hexec : exec i s = .next t) :
    t.regs.status.fatal = true := by
  rcases exec_cases hexec with ⟨e, rfl⟩ | ⟨u, heffect, rfl⟩
  · exact errorState_fatal h e
  · rw [complete_regs, heffect.status_eq]
    exact h

/-- A register write leaves FATAL set, unless it resets the block (R225). -/
theorem writeReg_fatal {s : State} (h : s.regs.status.fatal = true) (reg : Reg) (v : Word) :
    (s.writeReg reg v).regs.status.fatal = true ∨ (s.writeReg reg v).regs = Regs.reset := by
  rcases writeReg_cases s reg v with hw | ⟨-, hw⟩ | hw | hw | hw | ⟨-, -, hw⟩ <;> rw [hw]
  · exact .inl h
  · exact .inl (by rw [store_status]; exact h)
  · exact .inr rfl
  · exact .inl h
  · exact .inl h
  · exact .inl h

/-- A host action leaves FATAL set, unless it resets the block (R225). -/
theorem hostAct_fatal {x : HostAction} {s t : State} (h : s.regs.status.fatal = true)
    (hact : hostAct x s = .next t) : t.regs.status.fatal = true ∨ t.regs = Regs.reset := by
  rcases hostAct_cases hact with rfl | ⟨v, rfl⟩ | ⟨reg, v, rfl⟩ | rfl | ⟨a, v, -, -, -, rfl⟩ |
    ⟨a, v, -, -, -, rfl⟩ | ⟨a, -, -, -, rfl⟩
  · exact .inl h
  · exact .inl h
  · exact writeReg_fatal h reg v
  · exact .inr rfl
  · exact .inl h
  · exact .inl h
  · exact .inl h

/-- Settles O16, by what a step can be. -/
theorem fatalClearedOnlyByReset : Obligations.FatalClearedOnlyByReset := by
  unfold Obligations.FatalClearedOnlyByReset
  intro s t hstep h
  rcases step_cases hstep with ⟨i, -, -, -, hexec⟩ | ⟨e, -, -, -, rfl⟩ | ⟨x, rest, -, hact⟩ | ⟨-, -, rfl⟩
  · exact .inl (exec_fatal h hexec)
  · exact .inl (errorState_fatal h .illegalCmd)
  · exact hostAct_fatal (s := { s with host := rest }) h hact
  · exact .inl h

end Sys2Proof.Machine
end

section
/-! PROOFS. Reset (R250 to R252). -/
namespace Sys2Proof.Machine

/-- Settles O9, register by register. -/
theorem resetRegisterValues : Obligations.ResetRegisterValues := by
  unfold Obligations.ResetRegisterValues
  refine ⟨fun reg hid hformat => ?_, rfl, rfl, rfl, rfl⟩
  cases reg
  case id => exact absurd rfl hid
  case format => exact absurd rfl hformat
  all_goals rfl

/-- Settles O12: no byte is written and STATUS is 0. -/
theorem resetSatisfiesInv : Obligations.ResetSatisfiesInv := ⟨wf_reset, rfl⟩

/-- A byte belongs to the abandoned region when the command's own region and engine memory hold it (R251). -/
theorem abandonedRegion_contains_iff {s : State} {i : Instr} (h : decode s.regs.cmd = .ok i) (a : Nat) :
    s.abandonedRegion.contains a ↔ a < s.memSize ∧ (s.writableOf i).contains a := by
  unfold State.abandonedRegion
  rw [h]
  simp only [Region.contains, Nat.lt_min]
  tauto

/-- A word that does not decode abandons nothing (R251). -/
theorem not_abandonedRegion_contains {s : State} {e : DecodeError} (h : decode s.regs.cmd = .error e) (a : Nat) :
    ¬ s.abandonedRegion.contains a := by
  unfold State.abandonedRegion
  rw [h]
  exact fun hin => Nat.not_lt_zero a hin.2

/-- The bytes a reset may change are those the command in flight could write (R251). -/
theorem inFlightTarget_iff (s : State) (a : Nat) :
    s.inFlightTarget a ↔ s.regs.status.busy = true ∧ s.abandonedRegion.contains a := by
  unfold State.inFlightTarget
  refine and_congr_right fun _ => ?_
  cases hd : decode s.regs.cmd with
  | error e => simp [not_abandonedRegion_contains hd a]
  | ok i =>
    rw [abandonedRegion_contains_iff hd]
    cases i <;> simp [State.writableOf, State.dbufRegion, Region.contains]

/-- A reset changes no byte but those the command in flight could write (R250, R251). -/
theorem resetBlock_byteAt_of_not_target {s : State} {a : Nat} (h : ¬ s.inFlightTarget a) :
    s.resetBlock.byteAt a = s.byteAt a := by
  rw [resetBlock_byteAt, if_neg (mt (inFlightTarget_iff s a).mpr h)]

/-- A write to CTRL with SRST set is a reset, whatever its other bits (R22, R251). -/
theorem writeReg_ctrl_srst (s : State) {v : Word} (h : v[0] = true) : s.writeReg .ctrl v = s.resetBlock := if_pos h

/-- Settles O11: the step is the reset of the block. -/
theorem softResetEffect : Obligations.SoftResetEffect := by
  unfold Obligations.SoftResetEffect
  intro s v rest h hsrst
  refine ⟨State.resetBlock { s with host := rest }, ?_, rfl, resetBlock_hostRace _, resetBlock_params _,
    resetBlock_host _, fun a ha => ?_⟩
  · rw [step_writeReg (reg := .ctrl) h, writeReg_ctrl_srst _ hsrst]
  · exact resetBlock_byteAt_of_not_target (s := { s with host := rest }) ha

end Sys2Proof.Machine
end

section
/-! PROOFS. Writes to the stored registers with BUSY = 0, and what they read back (R20 to R39). -/
namespace Sys2Proof.Machine

/-- The low bits of a field of a word, as a register stores them (R9). -/
theorem ofNat_bitsOf (v : Word) {hi lo n : Nat} (h : hi + 1 - lo = n) :
    BitVec.ofNat n (bitsOf v hi lo) = (v >>> lo).setWidth n := by
  subst h
  apply BitVec.eq_of_toNat_eq
  simp [bitsOf, Nat.shiftRight_eq_div_pow]

/-- A field of low bits reads as the word without its other bits. -/
theorem setWidth_setWidth_eq_and (v : Word) {n : Nat} (h : n ≤ 32) :
    (v.setWidth n).setWidth 32 = v &&& BitVec.ofNat 32 (2 ^ n - 1) := by
  apply BitVec.eq_of_toNat_eq
  have hpow : 2 ^ n ≤ 2 ^ 32 := Nat.pow_le_pow_right (by decide) h
  have hpos : 0 < 2 ^ n := Nat.two_pow_pos n
  have hmod := Nat.mod_lt v.toNat hpos
  rw [BitVec.toNat_and, BitVec.toNat_ofNat, Nat.mod_eq_of_lt (by omega), Nat.and_two_pow_sub_one_eq_mod,
    BitVec.toNat_setWidth, BitVec.toNat_setWidth, Nat.mod_eq_of_lt (by omega)]

/-- FORMAT written from a word reads as its low half (R25). -/
theorem format_readback (v : Word) :
    BitVec.ofNat 32 ((v.setWidth 8).toNat + 256 * ((v >>> 8).setWidth 8).toNat) = v &&& 0x0000FFFF#32 := by
  rw [show (0x0000FFFF#32 : Word) = BitVec.ofNat 32 (2 ^ 16 - 1) from rfl, ← setWidth_setWidth_eq_and v (by decide)]
  apply BitVec.eq_of_toNat_eq
  simp only [BitVec.toNat_ofNat, BitVec.toNat_setWidth, BitVec.toNat_ushiftRight, Nat.shiftRight_eq_div_pow]
  omega

/-- The CTRL word of the four bits of a word's low five (R22). -/
theorem ctrl_word_low : ∀ x : BitVec 5, Ctrl.word { ieDone := x[1], ieErr := x[2], dout := x[3], palMode := x[4] } =
    (x &&& 0x1E#5).setWidth 32 := by
  decide

/-- CTRL written from a word reads as its bits 4:1 (R22). -/
theorem ctrl_readback (v : Word) :
    Ctrl.word { ieDone := v[1], ieErr := v[2], dout := v[3], palMode := v[4] } = v &&& 0x0000001E#32 := by
  calc Ctrl.word { ieDone := v[1], ieErr := v[2], dout := v[3], palMode := v[4] }
      = (v.setWidth 5 &&& 0x1E#5).setWidth 32 := by simpa using ctrl_word_low (v.setWidth 5)
    _ = v &&& BitVec.ofNat 32 (2 ^ 5 - 1) &&& 0x0000001E#32 := by
      rw [BitVec.setWidth_and, setWidth_setWidth_eq_and v (by decide)]
      rfl
    _ = v &&& 0x0000001E#32 := by
      rw [BitVec.and_assoc]
      rfl

/-- A register that only stores its value: neither CTRL, STATUS nor CMD (R22 to R24). -/
abbrev Reg.storesOnly (reg : Reg) : Prop := reg ≠ .ctrl ∧ reg ≠ .status ∧ reg ≠ .cmd

/-- With BUSY = 0 a write to a register that only stores its value stores it (R25 to R37). -/
theorem writeReg_of_idle {s : State} (hidle : s.regs.status.busy = false) {reg : Reg} (hreg : reg.storesOnly)
    (v : Word) : s.writeReg reg v = { s with regs := s.regs.store reg v } := by
  obtain ⟨hctrl, hstatus, hcmd⟩ := hreg
  have hnot : ¬ s.regs.status.busy = true := by simp [hidle]
  cases reg
  case ctrl => exact absurd rfl hctrl
  case status => exact absurd rfl hstatus
  case cmd => exact absurd rfl hcmd
  all_goals exact if_neg hnot

/-- With BUSY = 0 a write to CTRL without SRST stores its four bits (R22). -/
theorem writeReg_ctrl_of_idle {s : State} (hidle : s.regs.status.busy = false) {v : Word} (h : v[0] = false) :
    s.writeReg .ctrl v = { s with regs := { s.regs with
      ctrl := { ieDone := v[1], ieErr := v[2], dout := v[3], palMode := v[4] } } } := by
  simp [State.writeReg, State.writeCtrl, Ctrl.write, h, hidle]

/-! What the narrow registers store: the low bits of the word, FORMAT its two low bytes (R25 to R27, R34, R35). -/

theorem store_format (k : Regs) (v : Word) :
    k.store .format v = { k with channels := v.setWidth 8, bits := (v >>> 8).setWidth 8 } := by
  simp [Regs.store, ofNat_bitsOf]
theorem store_width (k : Regs) (v : Word) : k.store .width v = { k with width := v.setWidth 16 } := by
  simp [Regs.store, ofNat_bitsOf]
theorem store_height (k : Regs) (v : Word) : k.store .height v = { k with height := v.setWidth 16 } := by
  simp [Regs.store, ofNat_bitsOf]
theorem store_qstep (k : Regs) (v : Word) : k.store .qstep v = { k with qstep := v.setWidth 8 } := by
  simp [Regs.store, ofNat_bitsOf]
theorem store_ncols (k : Regs) (v : Word) : k.store .ncols v = { k with ncols := v.setWidth 8 } := by
  simp [Regs.store, ofNat_bitsOf]

/-- Settles O20: each written register by what it stores, read back through its mask. -/
theorem writtenRegisterReadsBack : Obligations.WrittenRegisterReadsBack := by
  unfold Obligations.WrittenRegisterReadsBack
  intro s reg v hidle
  refine ⟨fun hreg => ?_, fun hreg => ?_, fun hreg => ?_, ?_, fun k hrow => ?_, fun hreg => ?_⟩
  · simp only [List.mem_cons, List.not_mem_nil, or_false] at hreg
    rcases hreg with rfl | rfl | rfl | rfl | rfl | rfl | rfl | rfl <;>
      (rw [writeReg_of_idle hidle (by decide)]; rfl)
  · simp only [List.mem_cons, List.not_mem_nil, or_false] at hreg
    rcases hreg with rfl | rfl | rfl <;> rw [writeReg_of_idle hidle (by decide)]
    · rw [store_format, readReg_format]
      exact format_readback v
    · rw [store_width]
      exact setWidth_setWidth_eq_and v (by decide)
    · rw [store_height]
      exact setWidth_setWidth_eq_and v (by decide)
  · simp only [List.mem_cons, List.not_mem_nil, or_false] at hreg
    rcases hreg with rfl | rfl <;> rw [writeReg_of_idle hidle (by decide)]
    · rw [store_qstep]
      exact setWidth_setWidth_eq_and v (by decide)
    · rw [store_ncols]
      exact setWidth_setWidth_eq_and v (by decide)
  · rintro rfl hsrst
    rw [writeReg_ctrl_of_idle hidle hsrst]
    exact ⟨ctrl_readback v, rfl⟩
  · have hstore : reg.storesOnly ∧ k = s.regs.store reg v := by
      cases reg
      case id | ctrl | status | cmd | result0 | result1 => simp at hrow
      case format => simpa [Reg.storesOnly, store_format] using hrow
      case width => simpa [Reg.storesOnly, store_width] using hrow
      case height => simpa [Reg.storesOnly, store_height] using hrow
      case qstep => simpa [Reg.storesOnly, store_qstep] using hrow
      case ncols => simpa [Reg.storesOnly, store_ncols] using hrow
      all_goals simpa [Reg.storesOnly, Regs.store] using hrow
    obtain ⟨hreg, rfl⟩ := hstore
    exact writeReg_of_idle hidle hreg v
  · simp only [List.mem_cons, List.not_mem_nil, or_false] at hreg
    rcases hreg with rfl | rfl | rfl <;> (rw [writeReg_of_idle hidle (by decide)]; rfl)

end Sys2Proof.Machine
end

section
/-! PROOFS. The gray ramp and its candidate (R45, R102). -/
namespace Sys2Proof.Machine

/-- The ramp rises (R45). -/
theorem rampValue_mono {j k : Nat} (h : j ≤ k) : rampValue j ≤ rampValue k := by
  unfold rampValue rhu
  omega

/-- The luminances from which the formula of R102 gives at least `k + 1` lie above the middle of the ramp values `k` and
`k + 1`, those before them below it. -/
theorem rampValue_middle : ∀ k < 23,
    rampValue k + rampValue (k + 1) ≤ 2 * ((85 * k + 50) / 8) ∧
    2 * ((85 * k + 50) / 8) ≤ rampValue k + rampValue (k + 1) + 2 := by
  decide

/-- The gray candidate is the entry the formula gives, or the top one (R102). -/
theorem grayCandidate_some {top : GrayTop} {l gi gv : Nat} (h : grayCandidate top l = some (gi, gv)) :
    ∃ k, k = min ((8 * l + 42) / 85) 23 ∧ gi = 232 + k ∧ gv = rampValue k := by
  refine ⟨_, rfl, ?_⟩
  unfold grayCandidate at h
  split at h
  · next hle =>
    rw [Nat.min_eq_left hle]
    cases h
    exact ⟨rfl, rfl⟩
  · next hgt =>
    rw [Nat.min_eq_right (by omega)]
    cases top <;> cases h
    exact ⟨rfl, rfl⟩

/-- A ramp value is nearest to all that is above the middle to the value before it and below the middle to the value
after it, for the ramp rises. -/
theorem rampValue_nearest {l k j : Nat} (hbefore : j < k → rampValue (k - 1) + rampValue k ≤ 2 * l)
    (hafter : k < j → 2 * l ≤ rampValue k + rampValue (k + 1)) :
    ((rampValue k : Int) - l).natAbs ≤ ((rampValue j : Int) - l).natAbs := by
  rcases Nat.lt_trichotomy j k with hlt | rfl | hgt
  · have hmiddle := hbefore hlt
    have hj : rampValue j ≤ rampValue (k - 1) := rampValue_mono (by omega)
    have hk : rampValue (k - 1) ≤ rampValue k := rampValue_mono (by omega)
    omega
  · exact le_rfl
  · have hmiddle := hafter hgt
    have hj : rampValue (k + 1) ≤ rampValue j := rampValue_mono hgt
    have hk : rampValue k ≤ rampValue (k + 1) := rampValue_mono (by omega)
    omega

/-- Settles O34: the formula of R102 changes its entry at the middle of two ramp values. -/
theorem grayCandidateIsNearest : Obligations.GrayCandidateIsNearest := by
  unfold Obligations.GrayCandidateIsNearest
  intro top l gi gv _ hcandidate
  obtain ⟨k, hk, rfl, rfl⟩ := grayCandidate_some hcandidate
  refine ⟨⟨k, by omega, rfl, rfl⟩, fun j hj => rampValue_nearest (fun hlt => ?_) fun hgt => ?_⟩
  · obtain ⟨m, rfl⟩ : ∃ m, k = m + 1 := ⟨k - 1, by omega⟩
    obtain ⟨hmiddle, -⟩ := rampValue_middle m (by omega)
    rw [Nat.add_sub_cancel]
    omega
  · obtain ⟨-, hmiddle⟩ := rampValue_middle k (by omega)
    omega

end Sys2Proof.Machine
end

section
/-! PROOFS. The fixed palette (R43 to R45) and the candidate that truncate and QTRUNC choose (R105, R116). -/
namespace Sys2Proof.Machine

/-- Entries 0 to 15 are the base colours (R43). -/
theorem pal256_base (p : Params) (i : Fin 16) : pal256 p i = p.base16[i] := dif_pos i.isLt

/-- The entries of the colour cube (R44). -/
theorem pal256_cube (p : Params) {r g b : Nat} (hr : r ≤ 5) (hg : g ≤ 5) (hb : b ≤ 5) :
    pal256 p (16 + 36 * r + 6 * g + b) =
      { r := BitVec.ofNat 8 (51 * r), g := BitVec.ofNat 8 (51 * g), b := BitVec.ofNat 8 (51 * b) } := by
  have hred : (16 + 36 * r + 6 * g + b - 16) / 36 = r := by omega
  have hgreen : (16 + 36 * r + 6 * g + b - 16) / 6 % 6 = g := by omega
  have hblue : (16 + 36 * r + 6 * g + b - 16) % 6 = b := by omega
  rw [pal256, dif_neg (by omega), if_pos (by omega), hred, hgreen, hblue]

/-- The entries of the gray ramp (R45). -/
theorem pal256_ramp (p : Params) (k : Nat) : pal256 p (232 + k) = grayColor (rampValue k) := by
  rw [pal256, dif_neg (by omega), if_neg (by omega), Nat.add_sub_cancel_left]

/-- A component has one of six levels (R103). -/
theorem cubeLevel_le (c : Byte) : cubeLevel c ≤ 5 := by
  have := c.isLt
  unfold cubeLevel
  omega

/-- The cube candidate stands in the palette at its index (R44, R103). -/
theorem pal256_cubeIndex (p : Params) (c : Rgb) : pal256 p (cubeIndex c) = cubeColor c :=
  pal256_cube p (cubeLevel_le c.r) (cubeLevel_le c.g) (cubeLevel_le c.b)

/-- The cube candidate is an entry of the colour cube (R103). -/
theorem cubeIndex_range (c : Rgb) : 16 ≤ cubeIndex c ∧ cubeIndex c ≤ 231 := by
  have hr := cubeLevel_le c.r
  have hg := cubeLevel_le c.g
  have hb := cubeLevel_le c.b
  unfold cubeIndex
  omega

/-- truncate takes the gray candidate where it is strictly nearer, and the cube candidate everywhere else (R105). -/
theorem truncate_cases (top : GrayTop) (c : Rgb) :
    (∃ gi gv, grayCandidate top (luma c) = some (gi, gv) ∧ dist2 c (grayColor gv) < dist2 c (cubeColor c) ∧
      truncate top c = (gi, dist2 c (grayColor gv))) ∨
    ((∀ gi gv, grayCandidate top (luma c) = some (gi, gv) → dist2 c (cubeColor c) ≤ dist2 c (grayColor gv)) ∧
      truncate top c = (cubeIndex c, dist2 c (cubeColor c))) := by
  unfold truncate
  cases hcandidate : grayCandidate top (luma c) with
  | none => exact .inr ⟨fun _ _ h => (by cases h), rfl⟩
  | some candidate =>
    obtain ⟨gi, gv⟩ := candidate
    by_cases hnearer : dist2 c (grayColor gv) < dist2 c (cubeColor c)
    · exact .inl ⟨gi, gv, rfl, hnearer, if_pos hnearer⟩
    · refine .inr ⟨fun _ _ h => ?_, if_neg hnearer⟩
      cases h
      exact Nat.not_lt.mp hnearer

/-- truncate gives no base colour (R43, R105). -/
theorem truncate_index_range (top : GrayTop) (c : Rgb) : 16 ≤ (truncate top c).1 ∧ (truncate top c).1 ≤ 255 := by
  rcases truncate_cases top c with ⟨gi, gv, hcandidate, -, h⟩ | ⟨-, h⟩ <;> rw [h]
  · obtain ⟨k, hk, rfl, -⟩ := grayCandidate_some hcandidate
    dsimp only
    omega
  · obtain ⟨hlow, hhigh⟩ := cubeIndex_range c
    exact ⟨hlow, hhigh.trans (by decide)⟩

/-- The distance truncate gives is that of the palette's colour at the index (R44, R45, R105). -/
theorem truncate_distance (top : GrayTop) (p : Params) (c : Rgb) :
    (truncate top c).2 = dist2 c (pal256 p (truncate top c).1) := by
  rcases truncate_cases top c with ⟨gi, gv, hcandidate, -, h⟩ | ⟨-, h⟩ <;> rw [h]
  · obtain ⟨k, -, rfl, rfl⟩ := grayCandidate_some hcandidate
    rw [pal256_ramp]
  · rw [pal256_cubeIndex]

/-- The cube candidate is not nearer than what truncate chooses (R105). -/
theorem truncate_le_cube (top : GrayTop) (c : Rgb) : (truncate top c).2 ≤ dist2 c (cubeColor c) := by
  rcases truncate_cases top c with ⟨gi, gv, -, hnearer, h⟩ | ⟨-, h⟩ <;> rw [h]
  exact hnearer.le

/-- The gray candidate is not nearer than what truncate chooses (R105). -/
theorem truncate_le_gray {top : GrayTop} {c : Rgb} {gi gv : Nat}
    (hcandidate : grayCandidate top (luma c) = some (gi, gv)) : (truncate top c).2 ≤ dist2 c (grayColor gv) := by
  rcases truncate_cases top c with ⟨gi', gv', hchosen, -, h⟩ | ⟨hcube, h⟩ <;> rw [h]
  · cases hchosen.symm.trans hcandidate
    exact le_rfl
  · exact hcube gi gv hcandidate

/-- The square of the distance of two components fits 16 bits (R104). -/
theorem sqDiff_le (a b : Byte) : sqDiff a b ≤ 255 ^ 2 := by
  have ha := a.isLt
  have hb := b.isLt
  have habs : ((a.toNat : Int) - b.toNat).natAbs ≤ 255 := by omega
  have hsq : sqDiff a b = ((a.toNat : Int) - b.toNat).natAbs ^ 2 := by
    rw [sqDiff, ← Int.natAbs_sq]
    exact Int.toNat_natCast _
  rw [hsq]
  exact Nat.pow_le_pow_left habs 2

/-- A distance fits a register (R104). -/
theorem dist2_lt (c d : Rgb) : dist2 c d < 2 ^ 32 := by
  have hr := sqDiff_le c.r d.r
  have hg := sqDiff_le c.g d.g
  have hb := sqDiff_le c.b d.b
  unfold dist2
  omega

/-- Settles O38: RESULT0 and RESULT1 hold what truncate chooses, which fits them. -/
theorem qtruncChoosesNearestCandidate : Obligations.QtruncChoosesNearestCandidate := by
  unfold Obligations.QtruncChoosesNearestCandidate
  intro s
  refine ⟨_, rfl, ?_⟩
  have hrange := truncate_index_range s.params.grayTop (rgbOf s.regs.arg0)
  have hdistance := truncate_distance s.params.grayTop s.params (rgbOf s.regs.arg0)
  have hindex : (truncate s.params.grayTop (rgbOf s.regs.arg0)).1 % 2 ^ 32 =
      (truncate s.params.grayTop (rgbOf s.regs.arg0)).1 := Nat.mod_eq_of_lt (hrange.2.trans_lt (by decide))
  have hfits : (truncate s.params.grayTop (rgbOf s.regs.arg0)).2 % 2 ^ 32 =
      (truncate s.params.grayTop (rgbOf s.regs.arg0)).2 := Nat.mod_eq_of_lt (hdistance ▸ dist2_lt _ _)
  simp only [complete_regs, setResult1_regs, setResult0_regs, BitVec.toNat_ofNat, hindex, hfits]
  exact ⟨hrange.1, hrange.2, hdistance, truncate_le_cube _ _, fun gi gv => truncate_le_gray⟩

end Sys2Proof.Machine
end

section
/-! PROOFS. Only PALREAD reads the base colours, and the fixed palette as a whole (R43 to R45). -/
namespace Sys2Proof.Machine

/-- The machine with other base colours (R7, R43). -/
def State.withBase16 (colours : Vector Rgb 16) (s : State) : State :=
  { s with params := { s.params with base16 := colours } }

/-- The second answer is the first with other base colours: the same error, or the same effect. -/
def Recoloured (colours : Vector Rgb 16) (r r' : Except CmdError State) : Prop :=
  r' = r.map (State.withBase16 colours)

namespace Recoloured
variable {colours : Vector Rgb 16}

theorem ok (u : State) : Recoloured colours (.ok u) (.ok (u.withBase16 colours)) := rfl

/-- A check that does not read the base colours. -/
theorem check {c : Prop} [Decidable c] {e : CmdError} {k k' : Except CmdError State} (h : Recoloured colours k k') :
    Recoloured colours (if c then .error e else k) (if c then .error e else k') := by
  split
  · rfl
  · exact h

/-- A command ends the same way when its checks and effect do not read the base colours (R222, R223). -/
theorem finish {r r' : Except CmdError State} (h : Recoloured colours r r') {s t : State}
    (hend : finish s r = .next t) : finish (s.withBase16 colours) r' = .next (t.withBase16 colours) := by
  rw [h]
  cases r <;> cases hend <;> rfl

end Recoloured

/-- A command but PALREAD has the same checks and effect whatever the base colours, shown check by check (R43, R224). -/
theorem exec_recoloured (colours : Vector Rgb 16) {i : Instr} (hi : i ≠ .palread) (s : State) : ∃ r r',
    exec i s = finish s r ∧ exec i (s.withBase16 colours) = finish (s.withBase16 colours) r' ∧
      Recoloured colours r r' := by
  cases i with
  | nop => exact ⟨_, _, rfl, rfl, .ok s⟩
  | qselect => exact ⟨_, _, rfl, rfl, .check (.ok _)⟩
  | luma => exact ⟨_, _, rfl, rfl, .ok _⟩
  | grayidx =>
    refine ⟨_, _, rfl, rfl, ?_⟩
    have hcandidate : grayCandidate (s.withBase16 colours).params.grayTop (s.withBase16 colours).sample =
        grayCandidate s.params.grayTop s.sample := rfl
    rw [hcandidate]
    cases grayCandidate s.params.grayTop s.sample <;> exact .ok _
  | cubeidx => exact ⟨_, _, rfl, rfl, .ok _⟩
  | cdist => exact ⟨_, _, rfl, rfl, .ok _⟩
  | qtrunc => exact ⟨_, _, rfl, rfl, .ok _⟩
  | palread => exact absurd rfl hi
  | loadgray => exact ⟨_, _, rfl, rfl, .check (.check (.check (.check (.ok _))))⟩
  | map256 => exact ⟨_, _, rfl, rfl, .check (.check (.check (.check (.ok _))))⟩
  | dither => exact ⟨_, _, rfl, rfl, .check (.check (.check (.check (.ok _))))⟩
  | sixchar pc b => exact ⟨_, _, rfl, rfl, .check (.check (.check (.check (.ok _))))⟩
  | encseg pc b => exact ⟨_, _, rfl, rfl, .check (.check (.check (.check (.check (.check (.ok _))))))⟩
  | encband b => exact ⟨_, _, rfl, rfl, .check (.check (.check (.check (.check (.check (.ok _))))))⟩
  | encframe => exact ⟨_, _, rfl, rfl, .check (.check (.check (.check (.check (.check (.ok _))))))⟩

/-- The 24 ramp values (R45). -/
theorem rampValues_eq : (List.range 24).map rampValue =
    [0, 11, 21, 32, 43, 53, 64, 74, 85, 96, 106, 117, 128, 138, 149, 159, 170, 181, 191, 202, 213, 223, 234, 244] := by
  decide

/-- Settles O40: the palette by its ranges, truncate by its candidates, and the commands check by check. -/
theorem fixedPaletteEntries : Obligations.FixedPaletteEntries := by
  unfold Obligations.FixedPaletteEntries
  refine ⟨fun p => ⟨pal256_base p, fun _ _ _ => pal256_cube p, ?_⟩, truncate_index_range, ?_⟩
  · rw [← rampValues_eq, List.map_map]
    exact List.map_congr_left fun k _ => pal256_ramp p k
  · intro i s t colours hi hexec
    obtain ⟨r, r', hr, hr', hrecoloured⟩ := exec_recoloured colours hi s
    exact hr'.trans (hrecoloured.finish (hr.symm.trans hexec))

end Sys2Proof.Machine
end

section
/-! PROOFS. The host's accesses to engine memory and HOST_RACE (R63, R67, R232). -/
namespace Sys2Proof.Machine

/-- A host write to memory outside the regions in use stores its byte (R67). -/
theorem step_memWrite_of_not_used {s : State} {a : Nat} {v : Byte} {rest : List HostAction}
    (h : s.host = .memWrite a v :: rest) (ha : a < s.memSize) (hused : ¬ s.usedInFlight a) :
    step s = .next { s with host := rest, mem := Memory.write s.mem a v } := by
  rw [step_host h (.inr (by simp))]
  exact (if_neg (Nat.not_le.mpr ha)).trans (if_neg (mt (inRunningRegion_iff s a).mp hused))

/-- A host write to memory that races with the command in flight marks the race (R67, R232, log 6). -/
theorem step_memWrite_of_used {s : State} {a : Nat} {v : Byte} {rest : List HostAction}
    (h : s.host = .memWrite a v :: rest) (ha : a < s.memSize) (hused : s.usedInFlight a) :
    step s = .next { s with
      host := rest
      mem := Memory.write s.mem a (Config.freeByte s.draws a)
      draws := s.draws + 1
      hostRace := true } := by
  rw [step_host h (.inr (by simp))]
  exact (if_neg (Nat.not_le.mpr ha)).trans (if_pos ((inRunningRegion_iff s a).mpr hused))

/-- Settles O21: one write to memory, of the host's byte or of a free one. -/
theorem hostMemoryWrite : Obligations.HostMemoryWrite := by
  unfold Obligations.HostMemoryWrite
  intro s a v rest h ha
  refine ⟨fun hused => ?_, fun hused => ?_⟩
  · exact ⟨_, step_memWrite_of_not_used h ha hused, read_write_same _ _ _, fun b hb => read_write_other _ _ hb, rfl⟩
  · exact ⟨_, step_memWrite_of_used h ha hused, fun b hb => read_write_other _ _ hb, rfl⟩

/-- Settles O22: the byte of the address, or that of a free draw. -/
theorem hostMemoryRead : Obligations.HostMemoryRead := by
  unfold Obligations.HostMemoryRead
  intro s a rest h ha
  have hread : step s = hostMemRead a { s with host := rest } := step_host h (.inr (by simp))
  have hinside : ¬ State.memSize { s with host := rest } ≤ a := Nat.not_le.mpr ha
  rw [hread, hostMemRead, if_neg hinside]
  refine ⟨fun hused => ?_, fun hused => ⟨Config.freeByte s.draws a, s.draws + 1, ?_⟩⟩
  · exact if_neg (mt (inRunningRegion_iff s a).mp hused)
  · exact if_pos ((inRunningRegion_iff s a).mpr hused)

/-- No command touches HOST_RACE (R232). -/
theorem exec_hostRace {i : Instr} {s t : State} (hexec : exec i s = .next t) : t.hostRace = s.hostRace := by
  rcases exec_cases hexec with ⟨e, rfl⟩ | ⟨u, heffect, rfl⟩
  · rfl
  · rw [complete_hostRace, heffect.frame]

/-- No register write touches HOST_RACE, not even a reset (R232, R250). -/
theorem writeReg_hostRace (s : State) (reg : Reg) (v : Word) : (s.writeReg reg v).hostRace = s.hostRace := by
  rcases writeReg_cases s reg v with hw | ⟨-, hw⟩ | hw | hw | hw | ⟨-, -, hw⟩ <;> rw [hw]
  · exact resetBlock_hostRace s
  · exact acknowledge_hostRace s v
  · exact acceptWord_hostRace s v

/-- A host action leaves HOST_RACE as it was, or is a racing write and sets it (R67, R232). -/
theorem hostAct_hostRace {x : HostAction} {s t : State} (hact : hostAct x s = .next t) :
    t.hostRace = s.hostRace ∨ (t.hostRace = true ∧ ∃ a v, x = .memWrite a v ∧ s.usedInFlight a) := by
  rcases hostAct_cases hact with rfl | ⟨v, rfl⟩ | ⟨reg, v, rfl⟩ | rfl | ⟨a, v, -, -, -, rfl⟩ |
    ⟨a, v, hx, -, hrun, rfl⟩ | ⟨a, -, -, -, rfl⟩
  · exact .inl rfl
  · exact .inl rfl
  · exact .inl (writeReg_hostRace s reg v)
  · exact .inl (resetBlock_hostRace s)
  · exact .inl rfl
  · exact .inr ⟨rfl, a, v, hx, (inRunningRegion_iff s a).mp hrun⟩
  · exact .inl rfl

/-- A step leaves HOST_RACE as it was, or is a racing host write and sets it (R232). -/
theorem step_hostRace {s t : State} (hstep : step s = .next t) :
    t.hostRace = s.hostRace ∨
      (t.hostRace = true ∧ ∃ a v rest, s.host = .memWrite a v :: rest ∧ s.usedInFlight a) := by
  rcases step_cases hstep with ⟨i, -, -, -, hexec⟩ | ⟨e, -, -, -, rfl⟩ | ⟨x, rest, hhost, hact⟩ | ⟨-, -, rfl⟩
  · exact .inl (exec_hostRace hexec)
  · exact .inl rfl
  · rcases hostAct_hostRace hact with hsame | ⟨hset, a, v, rfl, hused⟩
    · exact .inl hsame
    · exact .inr ⟨hset, a, v, rest, hhost, hused⟩
  · exact .inl rfl

/-- Settles O23, from the two things a step can do to HOST_RACE. -/
theorem hostRaceSetOnlyByRacingWrite : Obligations.HostRaceSetOnlyByRacingWrite := by
  unfold Obligations.HostRaceSetOnlyByRacingWrite
  intro s t hstep
  rcases step_hostRace hstep with hsame | ⟨hset, hrace⟩
  · rw [hsame]
    exact ⟨id, .inl⟩
  · exact ⟨fun _ => hset, fun _ => .inr hrace⟩

end Sys2Proof.Machine
end

section
/-! PROOFS. LOADGRAY and MAP256 (R141, R142): their checks, and the loop that fills the working region. -/
namespace Sys2Proof.Machine

/-- With an image of at least one row the source region ends with its last row's last byte (R63). -/
theorem srcRegion_hi {s : State} (hh : s.imgH ≠ 0) : s.srcRegion.hi =
    s.regs.srcBase.toNat + (s.imgH - 1) * s.regs.stride.toNat + s.imgW * s.regs.channels.toNat := by
  obtain ⟨k, hk⟩ := Nat.exists_eq_succ_of_ne_zero hh
  simp only [State.srcRegion, hk, Nat.succ_mul, Nat.succ_sub_one]
  omega

/-- The bytes of the source pixels lie in the source region (R63). -/
theorem srcRegion_contains_srcAddr (s : State) {r c j : Nat} (hr : r < s.imgH) (hc : c < s.imgW)
    (hj : j < s.regs.channels.toNat) : s.srcRegion.contains (s.srcAddr r c j) := by
  have hrow : r * s.regs.stride.toNat ≤ (s.imgH - 1) * s.regs.stride.toNat := Nat.mul_le_mul_right _ (by omega)
  have hcolumn : (c + 1) * s.regs.channels.toNat ≤ s.imgW * s.regs.channels.toNat := Nat.mul_le_mul_right _ hc
  rw [Nat.succ_mul] at hcolumn
  rw [Region.contains, srcRegion_hi (by omega)]
  simp only [State.srcRegion, State.srcAddr]
  omega

/-- A byte of one region is in no region that does not overlap it (R65). -/
theorem not_contains_of_not_overlaps {g k : Region} (h : ¬ g.overlaps k) {a : Nat} (ha : g.contains a) :
    ¬ k.contains a := by
  simp only [Region.overlaps, Region.contains] at *
  omega

/-- Of the image, the pixels before (r, c) in raster order hold their value, and no byte outside the working region has
changed from `s` (R63, R147). -/
structure FilledTo (s : State) (value : Nat → Nat → Byte) (r c : Nat) (m : Memory) : Prop where
  pixels : ∀ i j, i < s.imgH → j < s.imgW → i < r ∨ (i = r ∧ j < c) → Memory.read m (s.dbufAddr i j) = value i j
  outside : ∀ a, ¬ s.dbufRegion.contains a → Memory.read m a = s.byteAt a

/-- The next pixel's write fills one pixel more: no other pixel has its address. -/
theorem FilledTo.write {s : State} {value : Nat → Nat → Byte} {r c : Nat} {m : Memory} (h : FilledTo s value r c m)
    (hr : r < s.imgH) (hc : c < s.imgW) :
    FilledTo s value r (c + 1) (Memory.write m (s.dbufAddr r c) (value r c)) := by
  refine ⟨fun i j hi hj hbefore => ?_, fun a ha => ?_⟩
  · by_cases hsame : s.dbufAddr i j = s.dbufAddr r c
    · obtain ⟨rfl, rfl⟩ := dbufAddr_inj s hj hc hsame
      exact read_write_same _ _ _
    · rw [read_write_other _ _ hsame]
      have hother : ¬ (i = r ∧ j = c) := by
        rintro ⟨rfl, rfl⟩
        exact hsame rfl
      exact h.pixels i j hi hj (by omega)
  · have hne : a ≠ s.dbufAddr r c := by
      rintro rfl
      exact ha ⟨dbufAddr_ge s r c, dbufAddr_lt s hr hc⟩
    rw [read_write_other _ _ hne]
    exact h.outside a ha

/-- The loop over the image fills the working region when each turn writes its pixel's value, whatever the turns
before it have put into the working region (R147). -/
theorem filledTo_forEachPixel {s : State} {value : Nat → Nat → Byte} {f : Nat → Nat → Memory → Memory}
    (hf : ∀ r c m, r < s.imgH → c < s.imgW → (∀ a, ¬ s.dbufRegion.contains a → Memory.read m a = s.byteAt a) →
      f r c m = Memory.write m (s.dbufAddr r c) (value r c)) :
    FilledTo s value s.imgH 0 (forEachPixel s.imgH s.imgW f s.mem) := by
  refine forEachPixel_induct (FilledTo s value) _ _ f s.mem ?_ (fun r m _ h => ?_) fun r c m hr hc h => ?_
  · exact ⟨fun i j _ _ hbefore => by omega, fun _ _ => rfl⟩
  · exact ⟨fun i j hi hj hbefore => h.pixels i j hi hj (by omega), h.outside⟩
  · rw [hf r c m hr hc h.outside]
    exact h.write hr hc

/-- The bytes the source pixels had, wherever the working region alone has changed (R65, R69). -/
theorem read_srcAddr {s : State} (hready : s.loadReady) {m : Memory}
    (hm : ∀ a, ¬ s.dbufRegion.contains a → Memory.read m a = s.byteAt a) {r c j : Nat} (hr : r < s.imgH)
    (hc : c < s.imgW) (hj : j < s.regs.channels.toNat) :
    Memory.read m (s.srcAddr r c j) = s.byteAt (s.srcAddr r c j) := by
  obtain ⟨-, -, hdisjoint, -, -⟩ := hready
  exact hm _ (not_contains_of_not_overlaps hdisjoint (srcRegion_contains_srcAddr s hr hc hj))

/-- What a filled working region says of the memory as the statements write its addresses (R63). -/
theorem FilledTo.byteAt {s : State} {value : Nat → Nat → Byte} {m : Memory} (h : FilledTo s value s.imgH 0 m) :
    (∀ r c, r < s.imgH → c < s.imgW → Memory.read m (s.regs.dbufBase.toNat + r * s.imgW + c) = value r c) ∧
    (∀ a, a < s.regs.dbufBase.toNat ∨ s.regs.dbufBase.toNat + s.imgW * s.imgH ≤ a →
      Memory.read m a = s.byteAt a) := by
  refine ⟨fun r c hr hc => h.pixels r c hr hc (.inl hr), fun a ha => h.outside a fun hin => ?_⟩
  simp only [Region.contains, State.dbufRegion] at hin
  omega

/-- LOADGRAY with its format (R141). -/
theorem exec_loadgray {s : State} (h : s.gray8) : exec .loadgray s =
    finish s (checkLoad s (.ok (s.setMem (forEachPixel s.imgH s.imgW (loadPixel s) s.mem)))) :=
  congrArg (finish s) (if_neg (not_not.mpr h))

/-- MAP256 with its format (R142). -/
theorem exec_map256 {s : State} (h : s.rgb8) : exec .map256 s =
    finish s (checkLoad s (.ok (s.setMem (forEachPixel s.imgH s.imgW (mapPixel s) s.mem)))) :=
  congrArg (finish s) (if_neg (not_not.mpr h))

/-- LOADGRAY past its checks fills the working region with the source bytes (R141). -/
theorem loadgray_filledTo {s : State} (hformat : s.gray8) (hready : s.loadReady) :
    FilledTo s (fun r c => s.byteAt (s.srcAddr r c 0)) s.imgH 0
      (forEachPixel s.imgH s.imgW (loadPixel s) s.mem) := by
  obtain ⟨hchannels, -⟩ := hformat
  refine filledTo_forEachPixel fun r c m hr hc hm => ?_
  rw [loadPixel, read_srcAddr hready hm hr hc (by simp [hchannels])]

/-- MAP256 past its checks fills the working region with the truncated source colours (R142). -/
theorem map256_filledTo {s : State} (hformat : s.rgb8) (hready : s.loadReady) :
    FilledTo s (fun r c => BitVec.ofNat 8 (truncate s.params.grayTop (sourceColor s s.mem r c)).1) s.imgH 0
      (forEachPixel s.imgH s.imgW (mapPixel s) s.mem) := by
  obtain ⟨hchannels, -⟩ := hformat
  refine filledTo_forEachPixel fun r c m hr hc hm => ?_
  have hbyte : ∀ j, j < 3 → Memory.read m (s.srcAddr r c j) = Memory.read s.mem (s.srcAddr r c j) := fun j hj =>
    read_srcAddr hready hm hr hc (by simpa [hchannels] using hj)
  have hcolor : sourceColor s m r c = sourceColor s s.mem r c := by
    rw [sourceColor, sourceColor, hbyte 0 (by decide), hbyte 1 (by decide), hbyte 2 (by decide)]
  rw [mapPixel, hcolor]

/-- Settles O41: the loop copies, and the source is not in the working region. -/
theorem loadgrayCopiesImage : Obligations.LoadgrayCopiesImage := by
  unfold Obligations.LoadgrayCopiesImage
  intro s hformat hready
  obtain ⟨hpixels, houtside⟩ := (loadgray_filledTo hformat hready).byteAt
  have hexec : exec .loadgray s =
      .next (s.setMem (forEachPixel s.imgH s.imgW (loadPixel s) s.mem)).complete := by
    rw [exec_loadgray hformat, checkLoad_of_ready hready, finish_ok]
  refine ⟨_, hexec, fun r c hr hc => ?_, houtside, rfl⟩
  have haddr : s.srcAddr r c 0 = s.regs.srcBase.toNat + r * s.regs.stride.toNat + c := by
    simp [State.srcAddr, hformat.1]
  rw [← haddr]
  exact hpixels r c hr hc

/-- Settles O42: the loop truncates, and every index fits a byte. -/
theorem map256TruncatesImage : Obligations.Map256TruncatesImage := by
  unfold Obligations.Map256TruncatesImage
  intro s hformat hready
  obtain ⟨hpixels, houtside⟩ := (map256_filledTo hformat hready).byteAt
  have hexec : exec .map256 s =
      .next (s.setMem (forEachPixel s.imgH s.imgW (mapPixel s) s.mem)).complete := by
    rw [exec_map256 hformat, checkLoad_of_ready hready, finish_ok]
  refine ⟨_, hexec, fun r c a hr hc ha => ?_, houtside, rfl⟩
  have haddr : ∀ j, s.srcAddr r c j = a + j := fun j => by
    simp [State.srcAddr, hformat.1, ha, Nat.mul_comm]
  have hcolor : sourceColor s s.mem r c = { r := s.byteAt a, g := s.byteAt (a + 1), b := s.byteAt (a + 2) } := by
    simp only [sourceColor, haddr]
    rfl
  obtain ⟨-, hbyte⟩ := truncate_index_range s.params.grayTop (sourceColor s s.mem r c)
  rw [← hcolor]
  exact (congrArg BitVec.toNat (hpixels r c hr hc)).trans (Nat.mod_eq_of_lt (Nat.lt_succ_of_le hbyte))

/-- An empty image or overlapping regions are the first errors past the format (R141, R142, R224). -/
theorem checkLoad_config {α : Type} {s : State} (h : s.imgW = 0 ∨ s.imgH = 0 ∨ s.srcRegion.overlaps s.dbufRegion)
    (k : Except CmdError α) : checkLoad s k = .error .config := by
  unfold checkLoad
  by_cases hempty : s.emptyImage
  · exact if_pos hempty
  · rw [if_neg hempty]
    exact if_pos ((or_assoc.mpr h).resolve_left hempty)

/-- A region past MEM_SIZE is the error after those (R64, R224). -/
theorem checkLoad_bus {α : Type} {s : State} (hw : s.imgW ≠ 0) (hh : s.imgH ≠ 0)
    (hdisjoint : ¬ s.srcRegion.overlaps s.dbufRegion)
    (hpast : s.srcRegion.passes s.memSize ∨ s.dbufRegion.passes s.memSize) (k : Except CmdError α) :
    checkLoad s k = .error .bus := by
  unfold checkLoad
  rw [if_neg (not_or.mpr ⟨hw, hh⟩), if_neg hdisjoint, if_pos hpast]

/-- Settles O43: the format check by itself, the others for both commands at once. -/
theorem loadErrors : Obligations.LoadErrors := by
  unfold Obligations.LoadErrors
  intro s
  refine ⟨fun hformat => ?_, fun hformat => ?_, fun i hi => ?_⟩
  · exact (congrArg (finish s) (if_pos hformat)).trans (finish_error s .format)
  · exact (congrArg (finish s) (if_pos hformat)).trans (finish_error s .format)
  · have hexec : ∃ u, exec i s = finish s (checkLoad s (.ok u)) := by
      rcases hi with ⟨rfl, hformat⟩ | ⟨rfl, hformat⟩
      · exact ⟨_, exec_loadgray hformat⟩
      · exact ⟨_, exec_map256 hformat⟩
    obtain ⟨u, hexec⟩ := hexec
    rw [hexec]
    refine ⟨fun hconfig => ?_, fun hw hh hdisjoint hpast => ?_⟩
    · rw [checkLoad_config hconfig, finish_error]
    · rw [← srcRegion_hi hh] at hpast
      rw [checkLoad_bus hw hh hdisjoint hpast, finish_error]

end Sys2Proof.Machine
end

section
/-! PROOFS. What the encoder reads: registers, parameters, and the bytes of the working region (R63, R171 to R177). -/
namespace Sys2Proof.Machine

/-- An edge list depends on the characters of its columns alone (R172). -/
theorem edges_congr {ch ch' : Nat → Byte} {k w : Nat} (hk : 1 ≤ k) (h : ∀ c, c < w → ch c = ch' c) :
    edges ch k w = edges ch' k w := by
  have hscan : scanRow ch k w = scanRow ch' k w := by
    rw [scanRow_eq_columns ch w hk, scanRow_eq_columns ch' w hk]
    exact forUpTo_congr _ w fun c e hc => by simp only [scanColumn, h c hc]
  rw [edges, edges, hscan]

/-- The two machines agree on all that the encoder reads. -/
structure SameWorkingImage (s u : State) : Prop where
  regs : s.regs = u.regs
  params : s.params = u.params
  bytes : ∀ a, s.dbufRegion.lo ≤ a → a < s.dbufRegion.hi → s.byteAt a = u.byteAt a

namespace SameWorkingImage
variable {s u : State}

theorem imgW_eq (h : SameWorkingImage s u) : s.imgW = u.imgW := by simp only [State.imgW, h.regs]
theorem imgH_eq (h : SameWorkingImage s u) : s.imgH = u.imgH := by simp only [State.imgH, h.regs]
theorem maxIndex_eq (h : SameWorkingImage s u) : s.maxIndex = u.maxIndex := by simp only [State.maxIndex, h.regs]
theorem numBands_eq (h : SameWorkingImage s u) : s.numBands = u.numBands := by simp only [State.numBands, h.imgH_eq]

theorem pixel_eq (h : SameWorkingImage s u) {r c : Nat} (hr : r < s.imgH) (hc : c < s.imgW) :
    s.pixel r c = u.pixel r c := by
  have haddr : s.dbufAddr r c = u.dbufAddr r c := by simp only [State.dbufAddr, h.regs, h.imgW_eq]
  simp only [State.pixel, ← haddr, h.bytes _ (dbufAddr_ge s r c) (dbufAddr_lt s hr hc)]

/-- A column of the image has the same bit in each band row, present or absent (R171). -/
theorem maskBit_eq (h : SameWorkingImage s u) (b pc : Nat) {c : Nat} (hc : c < s.imgW) (k : Nat) :
    maskBit s b pc c k = maskBit u b pc c k := by
  unfold maskBit
  rw [← h.imgH_eq]
  by_cases hr : 6 * b + k < s.imgH
  · rw [h.pixel_eq hr hc]
  · rw [if_neg (fun hbit => hr hbit.1), if_neg (fun hbit => hr hbit.1)]

theorem sixChar_eq (h : SameWorkingImage s u) (b pc : Nat) {c : Nat} (hc : c < s.imgW) :
    sixChar s b pc c = sixChar u b pc c := by
  simp only [sixChar, sixMask, h.maskBit_eq b pc hc]

/-- The scan stays within the row, so that it meets characters of the image only (R172). -/
theorem bandEdges_eq (h : SameWorkingImage s u) (b pc : Nat) : bandEdges s b pc = bandEdges u b pc := by
  have hlanes : 1 ≤ Params.lanes s.params := Nat.succ_pos _
  rw [bandEdges, edges_congr hlanes fun c => h.sixChar_eq b pc, bandEdges, h.params, h.imgW_eq]

theorem segment_eq (h : SameWorkingImage s u) (b pc : Nat) : segment s b pc = segment u b pc := by
  rw [segment, segment, h.bandEdges_eq, h.maxIndex_eq]

theorem bandBytes_eq (h : SameWorkingImage s u) (b : Nat) : bandBytes s b = bandBytes u b := by
  rw [bandBytes, bandBytes, h.maxIndex_eq, funext (h.segment_eq b)]

theorem frameBytes_eq (h : SameWorkingImage s u) : frameBytes s = frameBytes u := by
  rw [frameBytes, frameBytes, h.numBands_eq, funext h.bandBytes_eq]

end SameWorkingImage

/-- Settles O60, from the pixels up to the frame. -/
theorem encoderReadsOnlyWorkingRegion : Obligations.EncoderReadsOnlyWorkingRegion := by
  unfold Obligations.EncoderReadsOnlyWorkingRegion
  intro s u hregs hparams hbytes
  have h : SameWorkingImage s u := ⟨hregs, hparams, hbytes⟩
  exact ⟨h.frameBytes_eq, h.segment_eq⟩

end Sys2Proof.Machine
end

section
/-! PROOFS. The fields of a command word, and decoding against encoding (R80 to R88). -/
namespace Sys2Proof.Machine

/-- A field read by shifting and masking. -/
theorem toNat_ushiftRight_and (w : Word) {hi lo : Nat} (h : hi + 1 - lo ≤ 32) :
    ((w >>> lo) &&& BitVec.ofNat 32 (2 ^ (hi + 1 - lo) - 1)).toNat = bitsOf w hi lo := by
  rw [← setWidth_setWidth_eq_and (w >>> lo) h, ← ofNat_bitsOf w rfl, BitVec.toNat_setWidth, BitVec.toNat_ofNat,
    bitsOf, Nat.mod_mod]
  exact Nat.mod_eq_of_lt ((Nat.mod_lt _ (Nat.two_pow_pos _)).trans_le (Nat.pow_le_pow_right (by decide) h))

/-- A word is its opcode byte and its two immediates (R80, R88). -/
theorem toNat_eq_fields (w : Word) :
    w.toNat = bitsOf w 31 16 * 2 ^ 16 + bitsOf w 15 8 * 2 ^ 8 + bitsOf w 7 0 := by
  have := w.isLt
  simp only [bitsOf]
  omega

/-- Bits 31:8 are the two immediates (R81, R82). -/
theorem bitsOf_31_8 (w : Word) : bitsOf w 31 8 = bitsOf w 31 16 * 2 ^ 8 + bitsOf w 15 8 := by
  simp only [bitsOf]
  omega

/-- The opcode map refuses all but the fifteen opcodes (R83). -/
theorem opcodeMap_eq_none_iff (op pc b : Nat) : opcodeMap op pc b = none ↔
    op ∉ [0x00, 0x01, 0x02, 0x03, 0x04, 0x05, 0x06, 0x07, 0x10, 0x11, 0x12, 0x20, 0x21, 0x22, 0x23] := by
  unfold opcodeMap
  split <;> simp_all

/-- The opcodes of format N (R81, R83). -/
theorem opcodeMap_formatN_iff (op pc b : Nat) : (∃ i, opcodeMap op pc b = some (.n, i)) ↔
    op ∈ [0x00, 0x01, 0x02, 0x03, 0x04, 0x05, 0x06, 0x07, 0x10, 0x11, 0x12, 0x23] := by
  unfold opcodeMap
  split <;> simp_all

/-- Only ENCBAND has format B (R81, R83). -/
theorem opcodeMap_formatB_iff (op pc b : Nat) : (∃ i, opcodeMap op pc b = some (.b, i)) ↔ op = 0x22 := by
  unfold opcodeMap
  split <;> simp_all

/-- What the opcode map selects has that opcode, and the immediates that its format carries (R81, R83). -/
theorem opcodeMap_fields {op pc b : Nat} {f : Format} {i : Instr} (h : opcodeMap op pc b = some (f, i)) :
    i.opcode = op ∧ i.immPc = (if f = .s then pc else 0) ∧ i.immB = (if f = .n then 0 else b) := by
  unfold opcodeMap at h
  split at h <;> cases h <;> exact ⟨rfl, rfl, rfl⟩

/-- Every command stands in the opcode map under its opcode (R83). -/
theorem opcodeMap_opcode (i : Instr) : ∃ f, opcodeMap i.opcode i.immPc i.immB = some (f, i) := by
  cases i <;> exact ⟨_, rfl⟩

/-- A word is decoded when the must-be-zero field of its format is zero: the converse of `decode_eq_ok` (R85). -/
theorem decode_of_opcodeMap {w : Word} {f : Format} {i : Instr}
    (hmap : opcodeMap (bitsOf w 7 0) (bitsOf w 15 8) (bitsOf w 31 16) = some (f, i))
    (hn : f = .n → bitsOf w 31 8 = 0) (hb : f = .b → bitsOf w 15 8 = 0) : decode w = .ok i := by
  unfold decode
  rw [hmap]
  cases f with
  | n => exact if_pos (hn rfl)
  | b => exact if_pos (hb rfl)
  | s => rfl

/-- A word is illegal when its opcode is reserved, or the must-be-zero field of its format is not zero (R85). -/
theorem decode_eq_error_iff (w : Word) : (∃ e, decode w = .error e) ↔
    opcodeMap (bitsOf w 7 0) (bitsOf w 15 8) (bitsOf w 31 16) = none ∨
    ((∃ i, opcodeMap (bitsOf w 7 0) (bitsOf w 15 8) (bitsOf w 31 16) = some (.n, i)) ∧ bitsOf w 31 8 ≠ 0) ∨
    ((∃ i, opcodeMap (bitsOf w 7 0) (bitsOf w 15 8) (bitsOf w 31 16) = some (.b, i)) ∧ bitsOf w 15 8 ≠ 0) := by
  unfold decode
  rcases opcodeMap (bitsOf w 7 0) (bitsOf w 15 8) (bitsOf w 31 16) with _ | ⟨f, i⟩
  · simp
  · cases f with
    | n => by_cases hz : bitsOf w 31 8 = 0 <;> simp [hz]
    | b => by_cases hz : bitsOf w 15 8 = 0 <;> simp [hz]
    | s => simp

/-- A command has an encoding when its immediates fit their fields (R80, R82). -/
theorem wellFormed_iff (i : Instr) : i.wellFormed = true ↔ i.immPc < 256 ∧ i.immB < 65536 := by
  cases i <;> simp [Instr.wellFormed, paletteIndexFits, bandIndexFits, Instr.immPc, Instr.immB]

/-- The fields of the encoding, for every command of the opcode map (R80, R88). -/
theorem encodedFields : ∀ i : Instr, Laws.EncodedFields.Statement i
  | .nop => Laws.EncodedFields.nop
  | .qselect => Laws.EncodedFields.qselect
  | .luma => Laws.EncodedFields.luma
  | .grayidx => Laws.EncodedFields.grayidx
  | .cubeidx => Laws.EncodedFields.cubeidx
  | .cdist => Laws.EncodedFields.cdist
  | .qtrunc => Laws.EncodedFields.qtrunc
  | .palread => Laws.EncodedFields.palread
  | .loadgray => Laws.EncodedFields.loadgray
  | .map256 => Laws.EncodedFields.map256
  | .dither => Laws.EncodedFields.dither
  | .sixchar pc b => Laws.EncodedFields.sixchar pc b
  | .encseg pc b => Laws.EncodedFields.encseg pc b
  | .encband b => Laws.EncodedFields.encband b
  | .encframe => Laws.EncodedFields.encframe

/-- The fields that the decoder reads from the encoding of a well-formed command (R82, R88). -/
theorem bitsOf_encode {i : Instr} (h : i.wellFormed = true) :
    bitsOf (encode i) 7 0 = i.opcode ∧ bitsOf (encode i) 15 8 = i.immPc ∧ bitsOf (encode i) 31 16 = i.immB := by
  obtain ⟨hop, hpc, hb⟩ := encodedFields i h
  have := (encode i).isLt
  simp only [bitsOf]
  omega

/-- Decoding undoes encoding (R88): the map selects the command, and the immediates its format lacks are 0. -/
theorem decode_encode {i : Instr} (h : i.wellFormed = true) : decode (encode i) = .ok i := by
  obtain ⟨hop, hpc, hb⟩ := bitsOf_encode h
  obtain ⟨f, hmap⟩ := opcodeMap_opcode i
  obtain ⟨-, himmPc, himmB⟩ := opcodeMap_fields hmap
  refine decode_of_opcodeMap (f := f) (by rw [hop, hpc, hb, hmap]) ?_ ?_
  · rintro rfl
    have hzeroPc : i.immPc = 0 := himmPc
    have hzeroB : i.immB = 0 := himmB
    rw [bitsOf_31_8, hb, hpc, hzeroB, hzeroPc, Nat.zero_mul]
  · rintro rfl
    exact hpc.trans himmPc

/-- The decoded command has all the fields of its word: those its format lacks are 0 in both (R82, R85). -/
theorem fields_of_decode {w : Word} {i : Instr} (h : decode w = .ok i) :
    i.opcode = bitsOf w 7 0 ∧ i.immPc = bitsOf w 15 8 ∧ i.immB = bitsOf w 31 16 := by
  obtain ⟨f, hmap, hn, hb⟩ := decode_eq_ok h
  obtain ⟨hop, himmPc, himmB⟩ := opcodeMap_fields hmap
  refine ⟨hop, ?_⟩
  cases f with
  | n =>
    have hzero := hn rfl
    rw [bitsOf_31_8] at hzero
    simp only [himmPc, himmB, reduceCtorEq, if_true, if_false]
    omega
  | b => exact ⟨himmPc.trans (hb rfl).symm, himmB⟩
  | s => exact ⟨himmPc, himmB⟩

/-- The fields of a word fit the immediates (R80). -/
theorem wellFormed_of_decode {w : Word} {i : Instr} (h : decode w = .ok i) : i.wellFormed = true := by
  obtain ⟨-, hpc, hb⟩ := fields_of_decode h
  rw [wellFormed_iff, hpc, hb]
  exact ⟨Nat.mod_lt _ (by decide), Nat.mod_lt _ (by decide)⟩

/-- Encoding undoes decoding (R88). -/
theorem encode_of_decode {w : Word} {i : Instr} (h : decode w = .ok i) : encode i = w := by
  obtain ⟨hop, hpc, hb⟩ := fields_of_decode h
  rw [encode, hop, hpc, hb, ← toNat_eq_fields, BitVec.ofNat_toNat, BitVec.setWidth_eq]

/-- Settles O5, by the fields of the encoding. -/
theorem decodeOfEncode : Obligations.DecodeOfEncode := fun _ h => decode_encode h

/-- Settles O6, by the fields of the word. -/
theorem encodeOfDecode : Obligations.EncodeOfDecode := fun _ _ h => ⟨wellFormed_of_decode h, encode_of_decode h⟩

/-- Settles O7: each word is the encoding of its command. -/
theorem decodesWordsOfTheSpec : Obligations.DecodesWordsOfTheSpec :=
  ⟨decode_encode (i := .nop) rfl, decode_encode (i := .qtrunc) rfl, decode_encode (i := .dither) rfl,
    decode_encode (i := .encseg 10 1) rfl, decode_encode (i := .encband 2) rfl,
    decode_encode (i := .sixchar 1 0) rfl, decode_encode (i := .encframe) rfl⟩

/-- A word is in a list of words exactly when its number is in the list of theirs. -/
theorem mem_iff_toNat_mem_map (w : Word) (ws : List Word) : w ∈ ws ↔ w.toNat ∈ ws.map BitVec.toNat :=
  (List.mem_map_of_injective fun _ _ => BitVec.eq_of_toNat_eq).symm

/-- Settles O4, from the three ways a word is illegal and the fields the masks read. -/
theorem illegalWordsOfTheOpcodeMap : Obligations.IllegalWordsOfTheOpcodeMap := by
  unfold Obligations.IllegalWordsOfTheOpcodeMap
  intro w
  have hop : (w &&& 0xFF#32).toNat = bitsOf w 7 0 := by
    simpa using toNat_ushiftRight_and w (hi := 7) (lo := 0) (by decide)
  have hupper : w >>> 8 = 0#32 ↔ bitsOf w 31 8 = 0 := by
    have := w.isLt
    rw [← BitVec.toNat_inj, BitVec.toNat_ushiftRight, Nat.shiftRight_eq_div_pow, bitsOf, BitVec.toNat_ofNat]
    omega
  have hpc : (w >>> 8) &&& 0xFF#32 = 0#32 ↔ bitsOf w 15 8 = 0 := by
    rw [← BitVec.toNat_inj, ← toNat_ushiftRight_and w (by decide)]
    rfl
  rw [decode_eq_error_iff, opcodeMap_eq_none_iff, opcodeMap_formatN_iff, opcodeMap_formatB_iff, hupper.ne, hpc.ne,
    mem_iff_toNat_mem_map, mem_iff_toNat_mem_map, ← BitVec.toNat_inj, hop]
  rfl

end Sys2Proof.Machine
end

section
/-! PROOFS. The engine's step: the word in CMD decoded and run, or refused (R85, R259), and how a word comes to
stand there (R84). -/
namespace Sys2Proof.Machine

/-- With a command in flight and the host yielding, the engine moves (R259). -/
theorem turn_of_busy {s : State} (hbusy : s.regs.status.busy = true) (hyields : s.hostYields = true) :
    s.turn = s.engineTurn := by
  unfold State.turn
  rw [hbusy, hyields]
  rfl

/-- The engine runs the command that CMD decodes to (R85). -/
theorem step_of_decode_ok {s : State} {i : Instr} (hbusy : s.regs.status.busy = true) (hyields : s.hostYields = true)
    (hdecode : decode s.regs.cmd = .ok i) : step s = exec i s := by
  have hturn : s.turn = .command i := by rw [turn_of_busy hbusy hyields, State.engineTurn, hdecode]
  rw [step, hturn]

/-- The engine ends a command word that does not decode with ILLEGAL_CMD (R85, R222). -/
theorem step_of_decode_error {s : State} {e : DecodeError} (hbusy : s.regs.status.busy = true)
    (hyields : s.hostYields = true) (hdecode : decode s.regs.cmd = .error e) :
    step s = .next (errorState s .illegalCmd) := by
  have hturn : s.turn = .illegal e := by rw [turn_of_busy hbusy hyields, State.engineTurn, hdecode]
  rw [step, hturn, raiseError_eq_errorState]

/-- ILLEGAL_CMD has code 1 and leaves FATAL as it is (R220, R222). -/
theorem errorState_illegalCmd (s : State) : errorState s .illegalCmd = { s with regs := { s.regs with
    status := { busy := false, done := false, err := true, fatal := s.regs.status.fatal, errcode := 1#4 } } } := by
  have hfatal : (s.regs.status.fatal || (CmdError.illegalCmd == .precond || CmdError.illegalCmd == .internal)) =
      s.regs.status.fatal := Bool.or_false _
  rw [errorState, hfatal, CmdError.code]

/-- The host held back yields (R88). -/
theorem hostYields_holdHost (s : State) : s.holdHost.hostYields = true := by
  unfold State.holdHost
  split
  · assumption
  · rfl

/-- Accepting a word leaves the host's actions as they are. -/
theorem hostYields_acceptWord (s : State) (w : Word) : (s.acceptWord w).hostYields = s.hostYields := rfl

/-- The command read from a table word is the one its 32-bit word decodes to (R80). -/
theorem decode_tableWord {nbits w : Nat} {i : Instr} (h : decodeTableWord nbits w = some i) :
    decode (tableWord nbits w) = .ok i := by
  unfold decodeTableWord at h
  cases hdecode : decode (tableWord nbits w) with
  | ok j =>
    rw [hdecode] at h
    exact congrArg Except.ok (Option.some.inj h)
  | error e =>
    rw [hdecode] at h
    cases h

/-- A word offered while BUSY or FATAL is dropped (R84). -/
theorem offerWord_dropped {s : State} (h : s.regs.status.busy = true ∨ s.regs.status.fatal = true) (w : Word) :
    s.offerWord w = s := if_pos (Bool.or_eq_true_iff.mpr h)

/-- A word offered with neither BUSY nor FATAL is accepted (R84). -/
theorem offerWord_accepted {s : State} (hbusy : s.regs.status.busy = false) (hfatal : s.regs.status.fatal = false)
    (w : Word) : s.offerWord w = s.acceptWord w := if_neg (by simp [hbusy, hfatal])

/-- Settles O1: the turn is the engine's. -/
theorem stepRunsDecodedCommand : Obligations.StepRunsDecodedCommand := fun _ _ => step_of_decode_ok

/-- Settles O2: the word stands in CMD with BUSY set, and the host is held back. -/
theorem fetchWordRunsItsCommand : Obligations.FetchWordRunsItsCommand := by
  unfold Obligations.FetchWordRunsItsCommand
  intro s nbits w i h
  have hyields : (s.withFetchWord nbits w).hostYields = true := by
    rw [State.withFetchWord, hostYields_acceptWord, hostYields_holdHost]
  exact step_of_decode_ok rfl hyields (decode_tableWord h)

/-- Settles O3: the step is the error state of ILLEGAL_CMD. -/
theorem stepRejectsIllegalWord : Obligations.StepRejectsIllegalWord := by
  unfold Obligations.StepRejectsIllegalWord
  intro s e hbusy hyields hdecode
  rw [step_of_decode_error hbusy hyields hdecode, errorState_illegalCmd]

/-- Settles O15: the write offers the word, which is dropped or accepted. -/
theorem offeredWordAcceptedOrDropped : Obligations.OfferedWordAcceptedOrDropped := by
  unfold Obligations.OfferedWordAcceptedOrDropped
  intro s v rest h
  have hstep : step s = .next (State.offerWord { s with host := rest } v) := step_writeReg (reg := .cmd) h
  refine ⟨fun hdrop => ?_, fun hbusy hfatal => ?_⟩
  · rw [hstep, offerWord_dropped (s := { s with host := rest }) hdrop]
  · rw [hstep, offerWord_accepted (s := { s with host := rest }) hbusy hfatal, State.acceptWord, Status.accept, hfatal]

end Sys2Proof.Machine
end

section
/-! PROOFS. The division of the quantizer: what select rounds to, and its error (R100, R106). -/
namespace Sys2Proof.Machine

/-- Below the exact half select is the floor quotient (R100). -/
theorem select_of_lt_half {x n : Nat} (h : 2 * (x % n) < n) : select x n = x / n := by
  rw [select, if_neg (Nat.not_le.mpr h), Nat.add_zero]

/-- From the exact half on select is the next quotient (R100, C1). -/
theorem select_of_half_le {x n : Nat} (h : n ≤ 2 * (x % n)) : select x n = x / n + 1 := by
  rw [select, if_pos h]

/-- The multiple select gives is `x` without its remainder, or the next multiple (R100). -/
theorem select_mul_cases (x n : Nat) :
    (2 * (x % n) < n ∧ select x n * n + x % n = x) ∨ (n ≤ 2 * (x % n) ∧ select x n * n + x % n = x + n) := by
  have hdiv := Nat.div_add_mod' x n
  rcases Nat.lt_or_ge (2 * (x % n)) n with hlt | hge
  · rw [select_of_lt_half hlt]
    exact .inl ⟨hlt, hdiv⟩
  · refine .inr ⟨hge, ?_⟩
    rw [select_of_half_le hge, Nat.succ_mul]
    omega

/-- Twice the error's magnitude is at most the divisor, for the remainder is on the near side of the half (R106). -/
theorem two_mul_natAbs_selectError_le (x : Nat) {n : Nat} (hn : 1 ≤ n) : 2 * (selectError x n).natAbs ≤ n := by
  have hrem := Nat.mod_lt x hn
  unfold selectError
  rcases select_mul_cases x n with ⟨hhalf, hmul⟩ | ⟨hhalf, hmul⟩ <;> omega

/-- A divisor of at least 2 gives at most 128, one above 255 / 2 (R100). -/
theorem select_le_128 {x n : Nat} (hx : x ≤ 255) (hn : 2 ≤ n) : select x n ≤ 128 := by
  have hquotient : x / n ≤ x / 2 := Nat.div_le_div_left hn (by decide)
  unfold select
  split <;> omega

/-- Division by 1 changes nothing (R100). -/
theorem select_one (x : Nat) : select x 1 = x := by
  rw [select_of_lt_half (by omega), Nat.div_one]

/-- select gives a byte (R100). -/
theorem select_le_255 {x n : Nat} (hx : x ≤ 255) (hn : 1 ≤ n) : select x n ≤ 255 := by
  rcases Nat.eq_or_lt_of_le hn with rfl | htwo
  · rwa [select_one]
  · exact (select_le_128 hx htwo).trans (by decide)

/-- The multiple select gives is at most 340: rounding up from `x` no less than `n` needs `n` at most 170 (R100). -/
theorem select_mul_le_340 {x n : Nat} (hx : x ≤ 255) (hn : n ≤ 255) : select x n * n ≤ 340 := by
  rcases select_mul_cases x n with ⟨-, hmul⟩ | ⟨hhalf, hmul⟩
  · omega
  · rcases Nat.lt_or_ge x n with hlt | hge
    · rw [Nat.mod_eq_of_lt hlt] at hmul
      omega
    · have hrem : n + x % n ≤ x := by
        rw [Nat.mod_eq_sub_mod hge]
        have := Nat.mod_le (x - n) n
        omega
      omega

/-- Settles O30: the two roundings and the bounds each give. -/
theorem selectRoundsHalfUp : Obligations.SelectRoundsHalfUp := by
  unfold Obligations.SelectRoundsHalfUp
  intro x n hx hpos hn
  exact ⟨select_of_lt_half, select_of_half_le, select_le_255 hx hpos, select_le_128 hx, select_mul_le_340 hx hn⟩

/-- Settles O31: a divisor of at most 255 has an error of at most 127. -/
theorem quantizerErrorBound : Obligations.QuantizerErrorBound := by
  unfold Obligations.QuantizerErrorBound
  intro x n _ hpos hn
  have hbound := two_mul_natAbs_selectError_le x hpos
  exact ⟨hbound, by omega, by omega⟩

end Sys2Proof.Machine
end

section
/-! PROOFS. The operands of the scalar commands as numbers (R13), and what completion leaves of their results (R38, R39,
R223). -/
namespace Sys2Proof.Machine

@[simp] theorem sample_eq (s : State) : s.sample = s.regs.arg0.toNat % 256 := by simp [State.sample, bitsOf]

@[simp] theorem rgbOf_r_toNat (v : Word) : (rgbOf v).r.toNat = v.toNat / 65536 % 256 := by simp [rgbOf, bitsOf]
@[simp] theorem rgbOf_g_toNat (v : Word) : (rgbOf v).g.toNat = v.toNat / 256 % 256 := by simp [rgbOf, bitsOf]
@[simp] theorem rgbOf_b_toNat (v : Word) : (rgbOf v).b.toNat = v.toNat % 256 := by simp [rgbOf, bitsOf]

theorem packRgb_eq (c : Rgb) :
    packRgb c = BitVec.ofNat 32 (c.r.toNat * 65536 + c.g.toNat * 256 + c.b.toNat) := rfl

/-- The divisor is QSTEP as a number (R34). -/
theorem divisor_eq_zero_iff (s : State) : s.divisor = 0 ↔ s.regs.qstep = 0#8 := BitVec.toNat_inj (y := 0#8)

/-- A command that leaves RESULT0 changes nothing else but STATUS (R38, R223). -/
theorem finish_result0 (s : State) (v : Word) : finish s (.ok (s.setResult0 v)) =
    .next { s with regs := { s.regs with result0 := v, status := doneStatus s } } := rfl

/-- A command that leaves RESULT0 and RESULT1 changes nothing else but STATUS (R38, R39, R223). -/
theorem finish_results (s : State) (v w : Word) : finish s (.ok ((s.setResult0 v).setResult1 w)) =
    .next { s with regs := { s.regs with result0 := v, result1 := w, status := doneStatus s } } := rfl

end Sys2Proof.Machine
end

section
/-! PROOFS. QSELECT and PALREAD, the scalar commands with checks (R111, R117). -/
namespace Sys2Proof.Machine

/-- QSELECT does not divide by zero (R111). -/
theorem exec_qselect_of_zero {s : State} (h : s.divisor = 0) : exec .qselect s = .next (errorState s .precond) := by
  change execQselect s = _
  rw [execQselect, if_pos h, finish_error]

/-- QSELECT leaves the index and the error of the sample (R111). -/
theorem exec_qselect_of_ne_zero {s : State} (h : s.divisor ≠ 0) :
    exec .qselect s = .next { s with regs := { s.regs with
      result0 := BitVec.ofNat 32 (select s.sample s.divisor)
      result1 := BitVec.ofInt 32 (selectError s.sample s.divisor)
      status := doneStatus s } } := by
  change execQselect s = _
  rw [execQselect, if_neg h, finish_results]

/-- Settles O29: the check is that of the divisor, and the error is that of R106. -/
theorem qselectResult : Obligations.QselectResult := by
  unfold Obligations.QselectResult
  refine ⟨by decide, fun s => ⟨fun hzero => ?_, fun hne => ?_⟩⟩
  · exact exec_qselect_of_zero ((divisor_eq_zero_iff s).mpr hzero)
  · rw [exec_qselect_of_ne_zero (mt (divisor_eq_zero_iff s).mp hne), selectError, sample_eq, Nat.cast_mul]
    rfl

/-- PALREAD in 256 mode leaves the packed palette colour (R117). -/
theorem exec_palread_256 {s : State} (h : s.regs.ctrl.palMode = true) :
    exec .palread s = .next { s with regs := { s.regs with
      result0 := packRgb (pal256 s.params s.sample), status := doneStatus s } } := by
  change execPalread s = _
  rw [execPalread, if_pos h, finish_result0]

/-- PALREAD in gray mode is its two checks and the percentage (R46, R117). -/
theorem exec_palread_gray {s : State} (h : s.regs.ctrl.palMode = false) :
    exec .palread s = finish s (if s.maxIndex = 0 then .error .precond else
      if s.maxIndex < s.sample then .error .precond else
      .ok (s.setResult0 (BitVec.ofNat 32 (grayPercent s.sample s.maxIndex)))) :=
  congrArg (finish s) (if_neg (Bool.eq_false_iff.mp h))

/-- Settles O39: by the mode, and in gray mode by its two checks. -/
theorem palreadResult : Obligations.PalreadResult := by
  unfold Obligations.PalreadResult
  refine ⟨by decide, fun s i n hi hn => ?_⟩
  rw [← sample_eq] at hi
  change n = s.maxIndex at hn
  subst hi hn
  refine ⟨fun hmode => ?_, fun hmode herror => ?_, fun hmode hne hle => ?_⟩
  · rw [exec_palread_256 hmode, packRgb_eq]
  · rw [exec_palread_gray hmode, ← finish_error]
    by_cases hzero : s.maxIndex = 0
    · rw [if_pos hzero]
    · rw [if_neg hzero, if_pos (herror.resolve_left hzero)]
  · rw [exec_palread_gray hmode, if_neg hne, if_neg (Nat.not_lt.mpr hle), finish_result0, grayPercent, rhu]

end Sys2Proof.Machine
end

section
/-! PROOFS. The scalar commands of colours: LUMA, GRAYIDX, CUBEIDX, CDIST and QTRUNC (R112 to R116). -/
namespace Sys2Proof.Machine

/-- LUMA leaves the luminance of ARG0 (R112). -/
theorem exec_luma (s : State) : exec .luma s = .next { s with regs := { s.regs with
    result0 := BitVec.ofNat 32 (luma (rgbOf s.regs.arg0)), status := doneStatus s } } :=
  finish_result0 _ _

/-- A gray has its own luminance, for the weights add up to 65536 (R101). -/
theorem luma_gray (v : Byte) : luma { r := v, g := v, b := v } = v.toNat := by
  dsimp only [luma]
  omega

/-- Settles O32: the formula of R101 over the components of ARG0. -/
theorem lumaResult : Obligations.LumaResult := by
  unfold Obligations.LumaResult
  refine ⟨by decide, fun s => ?_, luma_gray⟩
  rw [exec_luma, luma, rgbOf_r_toNat, rgbOf_g_toNat, rgbOf_b_toNat]

/-- GRAYIDX leaves the candidate's index and value (R113). -/
theorem exec_grayidx_some {s : State} {gi gv : Nat} (h : grayCandidate s.params.grayTop s.sample = some (gi, gv)) :
    exec .grayidx s = .next { s with regs := { s.regs with
      result0 := BitVec.ofNat 32 gi, result1 := BitVec.ofNat 32 gv, status := doneStatus s } } := by
  change execGrayidx s = _
  rw [execGrayidx, h, ← finish_results]

/-- GRAYIDX leaves 0x100 and 0 where there is no candidate (R113). -/
theorem exec_grayidx_none {s : State} (h : grayCandidate s.params.grayTop s.sample = none) :
    exec .grayidx s = .next { s with regs := { s.regs with
      result0 := 0x100#32, result1 := 0#32, status := doneStatus s } } := by
  change execGrayidx s = _
  rw [execGrayidx, h, ← finish_results]

/-- Up to entry 23 the formula of R102 gives the candidate, whatever GRAY_TOP. -/
theorem grayCandidate_ramp (top : GrayTop) {l k : Nat} (hk : k = (8 * l + 42) / 85) (h : k ≤ 23) :
    grayCandidate top l = some (232 + k, rampValue k) := by
  subst hk
  exact if_pos h

/-- Above entry 23 CLAMP gives the top of the ramp (R102). -/
theorem grayCandidate_clamp {l : Nat} (h : 24 ≤ (8 * l + 42) / 85) : grayCandidate .clamp l = some (255, 244) :=
  if_neg (Nat.not_le.mpr h)

/-- Above entry 23 CUBE gives none (R102). -/
theorem grayCandidate_cube {l : Nat} (h : 24 ≤ (8 * l + 42) / 85) : grayCandidate .cube l = none :=
  if_neg (Nat.not_le.mpr h)

/-- Settles O33: by the three cases of the gray candidate. -/
theorem grayidxResult : Obligations.GrayidxResult := by
  unfold Obligations.GrayidxResult
  refine ⟨by decide, fun s k hk => ?_⟩
  rw [← sample_eq] at hk
  refine ⟨fun hramp => ?_, fun habove htop => ?_, fun habove htop => ?_⟩
  · exact exec_grayidx_some (grayCandidate_ramp _ hk hramp)
  · exact exec_grayidx_some (htop ▸ grayCandidate_clamp (hk ▸ habove))
  · exact exec_grayidx_none (htop ▸ grayCandidate_cube (hk ▸ habove))

/-- CUBEIDX leaves the index and the packed colour of the cube candidate (R114). -/
theorem exec_cubeidx (s : State) : exec .cubeidx s = .next { s with regs := { s.regs with
    result0 := BitVec.ofNat 32 (cubeIndex (rgbOf s.regs.arg0))
    result1 := packRgb (cubeColor (rgbOf s.regs.arg0))
    status := doneStatus s } } :=
  finish_results _ _ _

/-- The value of a level is a byte (R103). -/
theorem levelValue_toNat (c : Byte) : (BitVec.ofNat 8 (51 * cubeLevel c)).toNat = 51 * cubeLevel c := by
  have := cubeLevel_le c
  rw [BitVec.toNat_ofNat]
  omega

/-- The packed colour of the cube candidate (R13, R103). -/
theorem packRgb_cubeColor (c : Rgb) : packRgb (cubeColor c) =
    BitVec.ofNat 32 (51 * cubeLevel c.r * 65536 + 51 * cubeLevel c.g * 256 + 51 * cubeLevel c.b) := by
  rw [packRgb_eq, cubeColor, levelValue_toNat, levelValue_toNat, levelValue_toNat]

/-- Settles O35: the index and the packed colour from the levels of ARG0. -/
theorem cubeidxResult : Obligations.CubeidxResult := by
  unfold Obligations.CubeidxResult
  refine ⟨by decide, fun s rr gr br hr hg hb => ?_⟩
  rw [← rgbOf_r_toNat] at hr
  rw [← rgbOf_g_toNat] at hg
  rw [← rgbOf_b_toNat] at hb
  subst hr hg hb
  rw [exec_cubeidx, packRgb_cubeColor]
  rfl

/-- CDIST leaves the distance of ARG0 and ARG1 (R115). -/
theorem exec_cdist (s : State) : exec .cdist s = .next { s with regs := { s.regs with
    result0 := BitVec.ofNat 32 (dist2 (rgbOf s.regs.arg0) (rgbOf s.regs.arg1)), status := doneStatus s } } :=
  finish_result0 _ _

/-- The square of a signed difference is not negative, so that as a number it is the integer (R104). -/
theorem sqDiff_cast (a b : Byte) : (sqDiff a b : Int) = ((a.toNat : Int) - b.toNat) ^ 2 :=
  Int.toNat_of_nonneg (sq_nonneg _)

/-- The distance is the sum of the squares of the signed differences (R104). -/
theorem dist2_cast (c d : Rgb) : (dist2 c d : Int) = ((c.r.toNat : Int) - d.r.toNat) ^ 2 +
    ((c.g.toNat : Int) - d.g.toNat) ^ 2 + ((c.b.toNat : Int) - d.b.toNat) ^ 2 := by
  simp only [dist2, Nat.cast_add, sqDiff_cast]

/-- Settles O36: the distance over the components of ARG0 and ARG1. -/
theorem cdistResult : Obligations.CdistResult := by
  unfold Obligations.CdistResult
  refine ⟨by decide, fun s r1 g1 b1 r2 g2 b2 hr1 hg1 hb1 hr2 hg2 hb2 => ?_⟩
  subst hr1 hg1 hb1 hr2 hg2 hb2
  rw [exec_cdist, ← BitVec.ofInt_natCast, dist2_cast]
  simp only [rgbOf_r_toNat, rgbOf_g_toNat, rgbOf_b_toNat]

/-- QTRUNC leaves the index and the distance truncate gives (R116). -/
theorem exec_qtrunc {s : State} {idx d : Nat} (h : truncate s.params.grayTop (rgbOf s.regs.arg0) = (idx, d)) :
    exec .qtrunc s = .next { s with regs := { s.regs with
      result0 := BitVec.ofNat 32 idx, result1 := BitVec.ofNat 32 d, status := doneStatus s } } := by
  change execQtrunc s = _
  rw [execQtrunc, h, ← finish_results]

/-- Settles O37: the two cases of truncate exclude each other. -/
theorem qtruncResult : Obligations.QtruncResult := by
  unfold Obligations.QtruncResult
  refine ⟨by decide, fun s c hc => ?_⟩
  subst hc
  rcases truncate_cases s.params.grayTop (rgbOf s.regs.arg0) with ⟨gi, gv, hchosen, hnearer, h⟩ | ⟨hcube, h⟩
  · refine ⟨fun gi' gv' hcandidate _ => ?_, fun hall => absurd hnearer (Nat.not_lt.mpr (hall gi gv hchosen))⟩
    cases hchosen.symm.trans hcandidate
    exact exec_qtrunc h
  · exact ⟨fun gi gv hcandidate hnearer => absurd hnearer (Nat.not_lt.mpr (hcube gi gv hcandidate)),
      fun _ => exec_qtrunc h⟩

end Sys2Proof.Machine
end

section
/-! PROOFS. The four diffused terms of an error (R144), and where they fall in the working region (R145, R146). -/
namespace Sys2Proof.Machine

/-- Truncating division is odd (R10). -/
theorem tdiv_neg (a : Int) (b : Nat) : tdiv (-a) b = -tdiv a b := by
  simp only [tdiv_eq_tdiv, Int.neg_tdiv]

/-- Of a number not below zero truncating division is the floor quotient (R10). -/
theorem tdiv_natCast (a b : Nat) : tdiv (a : Int) b = ((a / b : Nat) : Int) := by
  rw [tdiv_eq_tdiv]
  rfl

/-- The sum of the four truncated terms of an error (R144). -/
def termSum (err : Int) : Int := tdiv (err * 7) 16 + tdiv (err * 3) 16 + tdiv (err * 5) 16 + tdiv (err * 1) 16

theorem termSum_neg (err : Int) : termSum (-err) = -termSum err := by
  simp only [termSum, Int.neg_mul, tdiv_neg, Int.neg_add]

/-- The weights sum to 16, so that the four remainders are in all a multiple of 16, and at most 60 (R144, R150). -/
theorem termSum_natCast (m : Nat) : ∃ k : Nat, termSum m = k ∧ k ≤ m ∧ m ≤ k + 3 := by
  have hterm : ∀ w : Nat, tdiv ((m : Int) * w) 16 = ((m * w / 16 : Nat) : Int) := fun w => by
    rw [← Nat.cast_mul, tdiv_natCast]
  refine ⟨m * 7 / 16 + m * 3 / 16 + m * 5 / 16 + m * 1 / 16, ?_, by omega, by omega⟩
  exact congrArg₂ (· + ·) (congrArg₂ (· + ·) (congrArg₂ (· + ·) (hterm 7) (hterm 3)) (hterm 5)) (hterm 1)

/-- A smaller magnitude is 0 or has the same sign. -/
theorem sign_eq_of_le {k m : Nat} (h : k ≤ m) : (k : Int) = 0 ∨ (k : Int).sign = (m : Int).sign := by
  rcases Nat.eq_zero_or_pos k with rfl | hk
  · exact .inl rfl
  · rw [Int.sign_natCast_of_ne_zero hk.ne', Int.sign_natCast_of_ne_zero (hk.trans_le h).ne']
    exact .inr rfl

/-- Settles O48: by the sign of the error, for truncation treats both signs alike. -/
theorem diffusedTermsLoseAtMostThree : Obligations.DiffusedTermsLoseAtMostThree := by
  unfold Obligations.DiffusedTermsLoseAtMostThree
  intro err sum _ _ hsum
  change sum = termSum err at hsum
  obtain ⟨m, herr⟩ := Int.eq_nat_or_neg err
  obtain ⟨k, hk, hle, hloss⟩ := termSum_natCast m
  rcases herr with rfl | rfl
  · rw [hsum, hk]
    exact ⟨hle, hloss, sign_eq_of_le hle⟩
  · rw [hsum, termSum_neg, hk]
    simp only [Int.natAbs_neg, Int.sign_neg, neg_eq_zero, neg_inj]
    exact ⟨hle, hloss, sign_eq_of_le hle⟩

/-- A byte is its own saturation (R11). -/
theorem sat8_byte (b : Byte) : sat8 (b.toNat : Int) = b := by
  have := b.isLt
  apply BitVec.eq_of_toNat_eq
  simp only [sat8, Int.toNat_natCast, BitVec.toNat_ofNat]
  omega

/-- A term of 0 changes no byte (R144, R146). -/
theorem sat8_add_zero_term (b : Byte) {err w : Int} (h : err * w = 0) :
    sat8 ((b.toNat : Int) + tdiv (err * w) 16) = b := by
  rw [h, tdiv_eq_tdiv, Int.zero_tdiv, Int.add_zero, sat8_byte]

/-- What one term does to every read (R145, R146). -/
theorem read_addSatIf (inside : Prop) [Decidable inside] (m : Memory) (a b : Nat) (t : Int) :
    Memory.read (addSatIf inside m a t) b =
      if inside ∧ b = a then sat8 ((Memory.read m b).toNat + t) else Memory.read m b := by
  unfold addSatIf addSat
  by_cases hin : inside
  · rw [if_pos hin, read_write]
    by_cases hb : b = a
    · simp [hin, hb]
    · simp [hb]
  · simp [hin]

/-- The weight with which the error of pixel (r, c) goes to pixel (i, j), in sixteenths (R144). -/
def errorWeight (r c i j : Nat) : Int :=
  if i = r ∧ j = c + 1 then 7
  else if i = r + 1 ∧ j + 1 = c then 3
  else if i = r + 1 ∧ j = c then 5
  else if i = r + 1 ∧ j = c + 1 then 1
  else 0

/-- The four neighbours and their weights; every other pixel has weight 0 (R144). -/
theorem errorWeight_cases (r c i j : Nat) :
    ((i = r ∧ j = c + 1) ∧ errorWeight r c i j = 7) ∨ ((i = r + 1 ∧ j + 1 = c) ∧ errorWeight r c i j = 3) ∨
    ((i = r + 1 ∧ j = c) ∧ errorWeight r c i j = 5) ∨ ((i = r + 1 ∧ j = c + 1) ∧ errorWeight r c i j = 1) ∨
    (¬ (i = r ∧ j = c + 1) ∧ ¬ (i = r + 1 ∧ j + 1 = c) ∧ ¬ (i = r + 1 ∧ j = c) ∧ ¬ (i = r + 1 ∧ j = c + 1) ∧
      errorWeight r c i j = 0) := by
  unfold errorWeight
  split_ifs <;> simp [*]

/-- A pixel's error goes to later pixels only (R147). -/
theorem errorWeight_of_before {r c i j : Nat} (h : i < r ∨ (i = r ∧ j < c + 1)) : errorWeight r c i j = 0 := by
  rcases errorWeight_cases r c i j with h | h | h | h | h <;> omega

/-- The byte below is one row on (R63). -/
theorem dbufAddr_below (s : State) (r c : Nat) : s.dbufAddr r c + s.imgW = s.dbufAddr (r + 1) c := by
  simp only [State.dbufAddr, Nat.succ_mul]
  omega

/-- The byte below left is the one before the byte below (R63). -/
theorem dbufAddr_belowLeft (s : State) (r : Nat) {c : Nat} (hc : 1 ≤ c) :
    s.dbufAddr r c + s.imgW - 1 = s.dbufAddr (r + 1) (c - 1) := by
  rw [dbufAddr_below]
  exact Nat.add_sub_assoc hc _

/-- The byte below right is the one after the byte below (R63). -/
theorem dbufAddr_belowRight (s : State) (r c : Nat) : s.dbufAddr r c + s.imgW + 1 = s.dbufAddr (r + 1) (c + 1) :=
  congrArg (· + 1) (dbufAddr_below s r c)

/-- A term at the address of pixel (i', j') reaches pixel (i, j) exactly when it is that pixel, and inside (R63,
R145). -/
theorem receives_iff {s : State} {inside place : Prop} {a i j i' j' : Nat} (hj : j < s.imgW)
    (haddr : inside → a = s.dbufAddr i' j' ∧ j' < s.imgW) (hplace : inside ∧ i = i' ∧ j = j' ↔ place) :
    (inside ∧ s.dbufAddr i j = a) ↔ place := by
  rw [← hplace]
  refine and_congr_right fun hin => ?_
  obtain ⟨rfl, hj'⟩ := haddr hin
  exact ⟨dbufAddr_inj s hj hj', fun ⟨hi, hj⟩ => by rw [hi, hj]⟩

/-- Diffusion adds to each pixel of the image its share of the error, which is 0 for all but four (R144 to R146). -/
theorem read_diffuse (s : State) {r c i j : Nat} (hc : c < s.imgW) (hi : i < s.imgH) (hj : j < s.imgW) (err : Int)
    (m : Memory) : Memory.read (diffuse s.imgW s.imgH r c (s.dbufAddr r c) err m) (s.dbufAddr i j) =
      sat8 ((Memory.read m (s.dbufAddr i j)).toNat + tdiv (err * errorWeight r c i j) 16) := by
  have hright : (c + 1 < s.imgW ∧ s.dbufAddr i j = s.dbufAddr r c + 1) ↔ (i = r ∧ j = c + 1) :=
    receives_iff hj (fun hin => ⟨rfl, hin⟩) (by omega)
  have hbelowLeft : ((r + 1 < s.imgH ∧ 1 ≤ c) ∧ s.dbufAddr i j = s.dbufAddr r c + s.imgW - 1) ↔
      (i = r + 1 ∧ j + 1 = c) :=
    receives_iff hj (fun hin => ⟨dbufAddr_belowLeft s r hin.2, by omega⟩) (by omega)
  have hbelow : (r + 1 < s.imgH ∧ s.dbufAddr i j = s.dbufAddr r c + s.imgW) ↔ (i = r + 1 ∧ j = c) :=
    receives_iff hj (fun _ => ⟨dbufAddr_below s r c, hc⟩) (by omega)
  have hbelowRight : ((r + 1 < s.imgH ∧ c + 1 < s.imgW) ∧ s.dbufAddr i j = s.dbufAddr r c + s.imgW + 1) ↔
      (i = r + 1 ∧ j = c + 1) :=
    receives_iff hj (fun hin => ⟨dbufAddr_belowRight s r c, hin.2⟩) (by omega)
  simp only [diffuse, read_addSatIf, hright, hbelowLeft, hbelow, hbelowRight]
  rcases errorWeight_cases r c i j with ⟨h, hw⟩ | ⟨h, hw⟩ | ⟨h, hw⟩ | ⟨h, hw⟩ | ⟨hnr, hnbl, hnb, hnbr, hw⟩ <;> rw [hw]
  · rw [if_neg (by omega), if_neg (by omega), if_neg (by omega), if_pos h]
  · rw [if_neg (by omega), if_neg (by omega), if_pos h, if_neg (by omega)]
  · rw [if_neg (by omega), if_pos h, if_neg (by omega), if_neg (by omega)]
  · rw [if_pos h, if_neg (by omega), if_neg (by omega), if_neg (by omega)]
  · rw [if_neg hnbr, if_neg hnb, if_neg hnbl, if_neg hnr, sat8_add_zero_term _ (Int.mul_zero _)]

/-- Diffusion stays in the working region (R145). -/
theorem read_diffuse_outside (s : State) {r c : Nat} (hr : r < s.imgH) (hc : c < s.imgW) (err : Int) (m : Memory)
    {b : Nat} (hb : ¬ s.dbufRegion.contains b) :
    Memory.read (diffuse s.imgW s.imgH r c (s.dbufAddr r c) err m) b = Memory.read m b := by
  have hpixel : ∀ {i j}, i < s.imgH → j < s.imgW → b ≠ s.dbufAddr i j := by
    rintro i j hi hj rfl
    exact hb ⟨dbufAddr_ge s i j, dbufAddr_lt s hi hj⟩
  simp only [diffuse, read_addSatIf]
  rw [if_neg, if_neg, if_neg, if_neg]
  · exact fun ⟨hright, heq⟩ => hpixel hr hright heq
  · exact fun ⟨⟨hbelow, hleft⟩, heq⟩ => hpixel hbelow (by omega) (heq.trans (dbufAddr_belowLeft s r hleft))
  · exact fun ⟨hbelow, heq⟩ => hpixel hbelow hc (heq.trans (dbufAddr_below s r c))
  · exact fun ⟨⟨hbelow, hright⟩, heq⟩ => hpixel hbelow hright (heq.trans (dbufAddr_belowRight s r c))

end Sys2Proof.Machine
end

section
/-! PROOFS. What a pixel gathers (R144 to R147): the terms one by one, and what one more visit adds. -/
namespace Sys2Proof.Machine

/-- A byte with one neighbour's term added, if there is that neighbour (R144 to R146). -/
def addTermIf (inside : Prop) [Decidable inside] (x : Byte) (err w : Int) : Byte :=
  if inside then sat8 ((x.toNat : Int) + tdiv (err * w) 16) else x

section
variable {inside : Prop} [Decidable inside] {x : Byte}

theorem addTermIf_of (h : inside) (err w : Int) :
    addTermIf inside x err w = sat8 ((x.toNat : Int) + tdiv (err * w) 16) := if_pos h

/-- No error changes no byte (R144). -/
theorem addTermIf_zero (w : Int) : addTermIf inside x 0 w = x := by
  unfold addTermIf
  rw [sat8_add_zero_term _ (Int.zero_mul w), ite_self]

/-- The error matters only where there is the neighbour (R145). -/
theorem addTermIf_congr {err err' : Int} (h : inside → err = err') (w : Int) :
    addTermIf inside x err w = addTermIf inside x err' w :=
  if_ctx_congr Iff.rfl (fun hin => by rw [h hin]) fun _ => rfl

end

/-- `gathered` as its four terms, each giving a byte again (R144 to R147). -/
def gatheredByte (start : Nat → Nat → Byte) (err : Nat → Nat → Int) (w r c : Nat) : Byte :=
  addTermIf (1 ≤ c) (addTermIf (1 ≤ r ∧ c + 1 < w) (addTermIf (1 ≤ r) (addTermIf (1 ≤ r ∧ 1 ≤ c) (start r c)
    (err (r - 1) (c - 1)) 1) (err (r - 1) c) 5) (err (r - 1) (c + 1)) 3) (err r (c - 1)) 7

variable {start : Nat → Nat → Byte} {err err' : Nat → Nat → Int} {w : Nat}

theorem gathered_eq (start : Nat → Nat → Byte) (err : Nat → Nat → Int) (w r c : Nat) :
    gathered (fun i j => (start i j).toNat) err w r c = (gatheredByte start err w r c).toNat := by
  simp only [gathered, gatheredByte, addTermIf, apply_ite BitVec.toNat]

/-- Without errors every pixel is its sample (R144). -/
theorem gatheredByte_zero (start : Nat → Nat → Byte) (w i j : Nat) :
    gatheredByte start (fun _ _ => 0) w i j = start i j := by
  simp only [gatheredByte, addTermIf_zero]

/-- What is gathered depends on the errors of the four neighbours before the pixel (R145, R147). -/
theorem gatheredByte_congr {i j : Nat} (haboveLeft : 1 ≤ i ∧ 1 ≤ j → err (i - 1) (j - 1) = err' (i - 1) (j - 1))
    (habove : 1 ≤ i → err (i - 1) j = err' (i - 1) j)
    (haboveRight : 1 ≤ i ∧ j + 1 < w → err (i - 1) (j + 1) = err' (i - 1) (j + 1))
    (hleft : 1 ≤ j → err i (j - 1) = err' i (j - 1)) :
    gatheredByte start err w i j = gatheredByte start err' w i j := by
  unfold gatheredByte
  rw [addTermIf_congr haboveLeft, addTermIf_congr habove, addTermIf_congr haboveRight, addTermIf_congr hleft]

/-- When pixel (r, c) is the last with an error, another pixel has gathered its share of it on top of what it had
gathered from the pixels before (R144 to R147). -/
theorem gatheredByte_visit {r c : Nat} (hc : c < w) (hlater : ∀ i j, r < i ∨ (i = r ∧ c ≤ j) → err i j = 0)
    (hother : ∀ i j, ¬ (i = r ∧ j = c) → err' i j = err i j) (i j : Nat) :
    gatheredByte start err' w i j =
      sat8 ((gatheredByte start err w i j).toNat + tdiv (err' r c * errorWeight r c i j) 16) := by
  have hzero := hlater r c (by omega)
  have hnew : ∀ i j, r < i ∨ (i = r ∧ c + 1 ≤ j) → err' i j = 0 := fun i j h => by
    rw [hother i j (by omega), hlater i j (by omega)]
  rcases errorWeight_cases r c i j with ⟨h, hw⟩ | ⟨h, hw⟩ | ⟨h, hw⟩ | ⟨h, hw⟩ | ⟨hnr, hnbl, hnb, hnbr, hw⟩ <;> rw [hw]
  -- the right neighbour: its last term, and the others are older
  · obtain ⟨rfl, rfl⟩ := h
    unfold gatheredByte
    rw [Nat.add_sub_cancel, hzero, addTermIf_zero, addTermIf_of (by omega),
      addTermIf_congr (inside := 1 ≤ i ∧ 1 ≤ c + 1) fun _ => hother (i - 1) c (by omega),
      addTermIf_congr (inside := 1 ≤ i) fun _ => hother (i - 1) (c + 1) (by omega),
      addTermIf_congr (inside := 1 ≤ i ∧ c + 1 + 1 < w) fun _ => hother (i - 1) (c + 1 + 1) (by omega)]
  -- the neighbour below left: its third term, with no error yet to its left
  · obtain ⟨rfl, rfl⟩ := h
    unfold gatheredByte
    rw [Nat.add_sub_cancel, hnew (r + 1) (j - 1) (by omega), hlater (r + 1) (j - 1) (by omega), hzero,
      hother r j (by omega), addTermIf_congr (inside := 1 ≤ r + 1 ∧ 1 ≤ j) fun _ => hother r (j - 1) (by omega)]
    simp only [addTermIf_zero]
    exact addTermIf_of (by omega) _ _
  -- the neighbour below: its second term, with no error yet to its right
  · obtain ⟨rfl, rfl⟩ := h
    unfold gatheredByte
    rw [Nat.add_sub_cancel, hnew (r + 1) (j - 1) (by omega), hlater (r + 1) (j - 1) (by omega), hzero,
      hnew r (j + 1) (by omega), hlater r (j + 1) (by omega),
      addTermIf_congr (inside := 1 ≤ r + 1 ∧ 1 ≤ j) fun _ => hother r (j - 1) (by omega)]
    simp only [addTermIf_zero]
    exact addTermIf_of (by omega) _ _
  -- the neighbour below right: its first term
  · obtain ⟨rfl, rfl⟩ := h
    unfold gatheredByte
    simp only [Nat.add_sub_cancel, hnew (r + 1) c (by omega), hlater (r + 1) c (by omega),
      hnew r (c + 1 + 1) (by omega), hlater r (c + 1 + 1) (by omega), hnew r (c + 1) (by omega),
      hlater r (c + 1) (by omega), hzero, addTermIf_zero]
    exact addTermIf_of (by omega) _ _
  -- any other pixel: none of its four terms is of (r, c)
  · rw [sat8_add_zero_term _ (Int.mul_zero _)]
    exact gatheredByte_congr (fun _ => hother _ _ (by omega)) (fun _ => hother _ _ (by omega))
      (fun _ => hother _ _ (by omega)) (fun _ => hother _ _ (by omega))

end Sys2Proof.Machine
end

section
/-! PROOFS. DITHER (R143 to R151): its checks, and what its loop has made of the working region at each visit. -/
namespace Sys2Proof.Machine

/-- The sample DITHER finds at pixel (r, c) (R148). -/
def sampleByte (s : State) (r c : Nat) : Byte := s.byteAt (s.dbufAddr r c)

/-- The byte pixel (r, c) holds when DITHER visits it, from the errors of the pixels before it in raster order; those of
the others do not exist yet (R143 to R147). -/
def visitedByte (s : State) (r c : Nat) : Byte :=
  gatheredByte (sampleByte s) (fun i j =>
    if _hbefore : i < r ∨ (i = r ∧ j < c) then selectError (visitedByte s i j).toNat s.divisor else 0) s.imgW r c
termination_by (r, c)
decreasing_by
  rcases _hbefore with h | ⟨rfl, h⟩
  · exact .left _ _ h
  · exact .right _ h

/-- The error pixel (r, c) makes when DITHER visits it (R143). -/
def visitedError (s : State) (r c : Nat) : Int := selectError (visitedByte s r c).toNat s.divisor

/-- The error of pixel (i, j) when the pixels before (r, c) in raster order have been visited (R143, R147). -/
def errorBefore (s : State) (r c i j : Nat) : Int :=
  if i < r ∨ (i = r ∧ j < c) then visitedError s i j else 0

theorem errorBefore_of_before {s : State} {r c i j : Nat} (h : i < r ∨ (i = r ∧ j < c)) :
    errorBefore s r c i j = visitedError s i j := if_pos h

theorem errorBefore_of_later {s : State} {r c i j : Nat} (h : r < i ∨ (i = r ∧ c ≤ j)) :
    errorBefore s r c i j = 0 := if_neg (by omega)

/-- A visit gives no other pixel an error. -/
theorem errorBefore_succ {s : State} {r c i j : Nat} (h : ¬ (i = r ∧ j = c)) :
    errorBefore s r (c + 1) i j = errorBefore s r c i j :=
  if_congr (by omega) rfl rfl

theorem visitedByte_eq (s : State) (r c : Nat) : visitedByte s r c =
    gatheredByte (sampleByte s) (errorBefore s r c) s.imgW r c := by
  rw [visitedByte]
  rfl

/-- The equation of the statement: a pixel gathers the errors of the pixels before it (R144 to R147). -/
theorem visitedByte_eq_gathered (s : State) (r c : Nat) : (visitedByte s r c).toNat =
    gathered s.pixel (visitedError s) s.imgW r c := by
  rw [visitedByte_eq, gatheredByte_congr (err' := visitedError s)
    (fun _ => errorBefore_of_before (by omega)) (fun _ => errorBefore_of_before (by omega))
    (fun _ => errorBefore_of_before (by omega)) (fun _ => errorBefore_of_before (by omega)), ← gathered_eq]
  rfl

/-- The byte DITHER leaves at a pixel (R149). -/
def ditheredByte (s : State) (r c : Nat) : Byte :=
  ditherOutput s.regs.ctrl.dout (select (visitedByte s r c).toNat s.divisor) s.divisor

/-- The working region when the pixels before (r, c) in raster order have been visited: those hold their output, the
others what they have gathered from those (R144 to R149). -/
structure DiffusedTo (s : State) (r c : Nat) (m : Memory) : Prop extends FilledTo s (ditheredByte s) r c m where
  pending : ∀ i j, i < s.imgH → j < s.imgW → r < i ∨ (i = r ∧ c ≤ j) → Memory.read m (s.dbufAddr i j) =
    gatheredByte (sampleByte s) (errorBefore s r c) s.imgW i j

/-- Diffusion leaves the visited pixels alone (R147). -/
theorem FilledTo.diffuse {s : State} {value : Nat → Nat → Byte} {r c : Nat} {m : Memory}
    (h : FilledTo s value r (c + 1) m) (hr : r < s.imgH) (hc : c < s.imgW) (err : Int) :
    FilledTo s value r (c + 1) (diffuse s.imgW s.imgH r c (s.dbufAddr r c) err m) := by
  refine ⟨fun i j hi hj hbefore => ?_, fun a ha => ?_⟩
  · rw [read_diffuse s hc hi hj, errorWeight_of_before hbefore, sat8_add_zero_term _ (Int.mul_zero _)]
    exact h.pixels i j hi hj hbefore
  · rw [read_diffuse_outside s hr hc err m ha]
    exact h.outside a ha

/-- A visit writes the pixel's output and gives the pixels after it their share of its error (R143 to R149). -/
theorem DiffusedTo.visit {s : State} {r c : Nat} {m : Memory} (h : DiffusedTo s r c m) (hr : r < s.imgH)
    (hc : c < s.imgW) : DiffusedTo s r (c + 1) (ditherPixel s r c m) := by
  have hold : Memory.read m (s.dbufAddr r c) = visitedByte s r c := by
    rw [h.pending r c hr hc (by omega), visitedByte_eq]
  have hvisit : ditherPixel s r c m = diffuse s.imgW s.imgH r c (s.dbufAddr r c)
      (visitedError s r c) (Memory.write m (s.dbufAddr r c) (ditheredByte s r c)) := by
    simp only [ditherPixel, hold]
    rfl
  rw [hvisit]
  refine ⟨(h.toFilledTo.write hr hc).diffuse hr hc _, fun i j hi hj hafter => ?_⟩
  have hne : s.dbufAddr i j ≠ s.dbufAddr r c := fun heq => by
    have := dbufAddr_inj s hj hc heq
    omega
  rw [read_diffuse s hc hi hj, read_write_other _ _ hne, h.pending i j hi hj (by omega),
    gatheredByte_visit (r := r) (c := c) hc (fun _ _ => errorBefore_of_later) (fun _ _ => errorBefore_succ),
    errorBefore_of_before (by omega)]

/-- The loop visits every pixel (R147, R148). -/
theorem diffusedTo_forEachPixel (s : State) :
    DiffusedTo s s.imgH 0 (forEachPixel s.imgH s.imgW (ditherPixel s) s.mem) := by
  refine forEachPixel_induct (DiffusedTo s) _ _ _ s.mem ?_ (fun r m _ h => ?_) fun r c m hr hc h => h.visit hr hc
  · refine ⟨⟨fun i j _ _ hbefore => by omega, fun _ _ => rfl⟩, fun i j _ _ _ => ?_⟩
    have hnone : errorBefore s 0 0 = fun _ _ => 0 := funext₂ fun _ _ => errorBefore_of_later (by omega)
    rw [hnone, gatheredByte_zero]
    rfl
  · have hrow : ∀ i j, j < s.imgW → errorBefore s r s.imgW i j = errorBefore s (r + 1) 0 i j := fun i j hj =>
      if_congr (by omega) rfl rfl
    refine ⟨⟨fun i j hi hj hbefore => h.pixels i j hi hj (by omega), h.outside⟩, fun i j hi hj hafter => ?_⟩
    rw [h.pending i j hi hj (by omega)]
    exact gatheredByte_congr (fun _ => hrow _ _ (by omega)) (fun _ => hrow _ _ hj) (fun hin => hrow _ _ hin.2)
      (fun _ => hrow _ _ (by omega))

/-- DITHER as its checks and its loop (R148). -/
theorem exec_dither (s : State) : exec .dither s = finish s (
    if ¬ s.gray8 then .error .format else
    if s.divisor = 0 then .error .precond else
    if s.emptyImage then .error .config else
    if s.dbufRegion.passes s.memSize then .error .bus else
    .ok (s.setMem (forEachPixel s.imgH s.imgW (ditherPixel s) s.mem))) := rfl

/-- DITHER past its checks completes with the loop's memory (R148). -/
theorem exec_dither_of_ready {s : State} (h : s.ditherReady) :
    exec .dither s = .next (s.setMem (forEachPixel s.imgH s.imgW (ditherPixel s) s.mem)).complete := by
  obtain ⟨hformat, hdivisor, hw, hh, hbus⟩ := h
  rw [exec_dither, if_neg (not_not.mpr hformat), if_neg hdivisor, if_neg (not_or.mpr ⟨hw, hh⟩),
    if_neg (Nat.not_lt.mpr hbus), finish_ok]

/-- Settles O44: by the bytes the pixels hold when visited. -/
theorem ditherDiffusesErrors : Obligations.DitherDiffusesErrors := by
  unfold Obligations.DitherDiffusesErrors
  intro s hready
  obtain ⟨hpixels, houtside⟩ := (diffusedTo_forEachPixel s).toFilledTo.byteAt
  exact ⟨_, exec_dither_of_ready hready, ⟨fun r c => (visitedByte s r c).toNat,
    fun r c _ _ => visitedByte_eq_gathered s r c, hpixels⟩, houtside, rfl⟩

/-- With DOUT = 0 the output is the palette index, which fits a byte (R149). -/
theorem ditherOutput_index_toNat {v n : Nat} (hv : v ≤ 255) (hn : 1 ≤ n) :
    (ditherOutput false (select v n) n).toNat = select v n :=
  Nat.mod_eq_of_lt (Nat.lt_succ_of_le (select_le_255 hv hn))

/-- With DOUT = 1 the output is the quantized intensity, or 255 above it (R149, C4). -/
theorem ditherOutput_intensity_toNat (q n : Nat) : (ditherOutput true q n).toNat = min (q * n) 255 := by
  have hsat := sat8_toNat ((q * n : Nat) : Int)
  simp only [ditherOutput, if_true]
  omega

/-- The largest divisor has the indices 0 and 1 only (R151). -/
theorem select_255_le {v : Nat} (hv : v ≤ 255) : select v 255 ≤ 1 := by
  unfold select
  split <;> omega

/-- Settles O46: every pixel is the output of the byte it held when visited. -/
theorem ditherOutputRange : Obligations.DitherOutputRange := by
  unfold Obligations.DitherOutputRange
  intro s hready
  have ⟨_, hdivisor, _⟩ := hready
  obtain ⟨hpixels, -⟩ := (diffusedTo_forEachPixel s).toFilledTo.byteAt
  refine ⟨_, exec_dither_of_ready hready, fun r c hr hc => ?_⟩
  have hv : (visitedByte s r c).toNat ≤ 255 := Nat.le_of_lt_succ (visitedByte s r c).isLt
  have hpixel : Memory.read _ (s.dbufAddr r c) = _ := hpixels r c hr hc
  simp only [State.byteAt, complete_mem, setMem_mem, hpixel, ditheredByte]
  refine ⟨fun hdout => ?_, fun hdout => ?_⟩
  · rw [hdout, ditherOutput_index_toNat hv (Nat.pos_of_ne_zero hdivisor)]
    exact ⟨⟨_, hv, rfl⟩, select_le_128 hv, fun hn => hn ▸ select_255_le hv⟩
  · rw [hdout, ditherOutput_intensity_toNat]
    rcases Nat.le_total (select (visitedByte s r c).toNat s.divisor * s.divisor) 255 with hle | hge
    · rw [Nat.min_eq_left hle]
      exact .inl (Nat.dvd_mul_left _ _)
    · exact .inr (Nat.min_eq_right hge)

/-- Division by 1 has no error (R143). -/
theorem selectError_one (x : Nat) : selectError x 1 = 0 := by
  rw [selectError, select_one, Nat.mul_one, Int.sub_self]

/-- Division by 1 outputs the byte, as an index and as an intensity (R149). -/
theorem ditherOutput_one (dout : Bool) (b : Byte) : ditherOutput dout (select b.toNat 1) 1 = b := by
  rw [select_one]
  cases dout with
  | false => exact BitVec.ofNat_toNat 8 b |>.trans b.setWidth_eq
  | true =>
    rw [ditherOutput, if_pos rfl, Nat.mul_one, sat8_byte]

/-- With QSTEP = 1 no pixel gathers anything (R148). -/
theorem ditheredByte_of_one {s : State} (h : s.divisor = 1) (r c : Nat) :
    ditheredByte s r c = s.byteAt (s.dbufAddr r c) := by
  have herror : errorBefore s r c = fun _ _ => 0 := by
    funext i j
    rw [errorBefore, visitedError, h, selectError_one, ite_self]
  rw [ditheredByte, h, ditherOutput_one, visitedByte_eq, herror, gatheredByte_zero, sampleByte]

/-- Settles O47: the bytes of the working region are pixels, and the others are left alone. -/
theorem ditherByOneIsIdentity : Obligations.DitherByOneIsIdentity := by
  unfold Obligations.DitherByOneIsIdentity
  intro s hready hone
  have hdivisor : s.divisor = 1 := congrArg BitVec.toNat hone
  have hfilled := (diffusedTo_forEachPixel s).toFilledTo
  refine ⟨_, exec_dither_of_ready hready, fun a => ?_⟩
  by_cases ha : s.dbufRegion.contains a
  · obtain ⟨r, c, hr, hc, rfl⟩ := dbufRegion_pixel s ha
    exact (hfilled.pixels r c hr hc (.inl hr)).trans (ditheredByte_of_one hdivisor r c)
  · exact hfilled.outside a ha

/-- Settles O45: each check in its place among those of R148. -/
theorem ditherErrors : Obligations.DitherErrors := by
  unfold Obligations.DitherErrors
  intro s
  simp only [ne_eq, ← divisor_eq_zero_iff, exec_dither]
  refine ⟨fun hformat => ?_, fun hformat hzero => ?_, fun hformat hne hempty => ?_, fun hformat hne hw hh hpast => ?_⟩
  · rw [if_pos hformat, finish_error]
  · rw [if_neg (not_not.mpr hformat), if_pos hzero, finish_error]
  · rw [if_neg (not_not.mpr hformat), if_neg hne, if_pos hempty, finish_error]
  · rw [if_neg (not_not.mpr hformat), if_neg hne, if_neg (not_or.mpr ⟨hw, hh⟩),
      if_pos (show s.dbufRegion.passes s.memSize from hpast), finish_error]

end Sys2Proof.Machine
end

section
/-! PROOFS. The appending encoder commands past the checks of their indices (R178, R180 to R182), what they append, and
ENCFRAME as the ENCBANDs one after the other (R177). -/
namespace Sys2Proof.Machine

/-! The four encoder commands by name: `exec` answers the meaning of its rule. -/

theorem exec_sixchar (pc b : Nat) (s : State) : exec (.sixchar pc b) s = execSixchar pc b s := rfl
theorem exec_encseg (pc b : Nat) (s : State) : exec (.encseg pc b) s = execEncseg pc b s := rfl
theorem exec_encband (b : Nat) (s : State) : exec (.encband b) s = execEncband b s := rfl
theorem exec_encframe (s : State) : exec .encframe s = execEncframe s := rfl

/-- Every band of a state passes the engine's check of its edge lists (R173, R181). -/
theorem bandConsistent_all (s : State) (b : Nat) : bandConsistent s b := fun _ _ => edges_consistent _ _ _

section IndicesGood
variable {s : State} {pc b : Nat}

/-- With good indices ENCSEG is left with its regions and its append (R180). -/
theorem exec_encseg_of_indices (hmax : s.maxIndex ≠ 0) (hpc : pc ≤ s.maxIndex) (hw : s.imgW ≠ 0) (hh : s.imgH ≠ 0)
    (hb : b < s.numBands) :
    exec (.encseg pc b) s = finish s (checkEncoder s (appendOutput s (segment s b pc))) := by
  have hedges : EdgeList.consistent s.imgW (bandEdges s b pc) := edges_consistent _ _ _
  rw [exec_encseg, execEncseg, if_neg (not_or.mpr ⟨hmax, Nat.not_lt.mpr hpc⟩),
    if_neg (not_or.mpr ⟨not_or.mpr ⟨hw, hh⟩, Nat.not_le.mpr hb⟩), if_neg (not_not.mpr hedges)]

/-- With a good index ENCBAND is left with its regions and its append (R181). -/
theorem exec_encband_of_indices (hmax : s.maxIndex ≠ 0) (hw : s.imgW ≠ 0) (hh : s.imgH ≠ 0) (hb : b < s.numBands) :
    exec (.encband b) s = finish s (checkEncoder s (appendOutput s (bandBytes s b))) := by
  rw [exec_encband, execEncband, if_neg hmax, if_neg (not_or.mpr ⟨not_or.mpr ⟨hw, hh⟩, Nat.not_le.mpr hb⟩),
    if_neg (not_not.mpr (bandConsistent_all s b))]

/-- With an image ENCFRAME is left with its regions and its append (R182). -/
theorem exec_encframe_of_image (hmax : s.maxIndex ≠ 0) (hw : s.imgW ≠ 0) (hh : s.imgH ≠ 0) :
    exec .encframe s = finish s (checkEncoder s (appendOutput s (frameBytes s))) := by
  rw [exec_encframe, execEncframe, if_neg hmax, if_neg (not_or.mpr ⟨hw, hh⟩),
    if_neg (not_not.mpr fun b _ => bandConsistent_all s b)]

end IndicesGood

/-- The state in which an encoder command that appended `out` leaves `s` (R178, R223). -/
def afterAppend (s : State) (out : List Byte) : State :=
  ((s.setMem (Memory.writeBytes s.mem (s.regs.outBase.toNat + s.regs.outLen.toNat) out)).setOutLen
    (BitVec.ofNat 32 (s.regs.outLen.toNat + out.length))).complete

theorem appended_afterAppend {s : State} {out : List Byte} (h : s.fits out) : appended s (afterAppend s out) out :=
  appended_of_fits h

/-- An append that passes its checks completes (R178). -/
theorem finish_appendOutput {s : State} {out : List Byte} (hready : s.encodeReady) (hfits : s.fits out) :
    finish s (checkEncoder s (appendOutput s out)) = .next (afterAppend s out) := by
  rcases appendOutput_cases s out with ⟨hover, -⟩ | ⟨-, happend⟩
  · exact absurd hfits hover
  · rw [checkEncoder_of_ready hready, happend, finish_ok, afterAppend]

/-- ENCBAND past its checks appends its band (R181). -/
theorem exec_encband_of_ready {s : State} {b : Nat} (hready : s.encodeReady) (hb : b < s.numBands)
    (hfits : s.fits (bandBytes s b)) : exec (.encband b) s = .next (afterAppend s (bandBytes s b)) := by
  obtain ⟨hmax, hw, hh, -⟩ := id hready
  rw [exec_encband_of_indices hmax hw hh hb, finish_appendOutput hready hfits]

/-- ENCFRAME past its checks appends the frame (R182). -/
theorem exec_encframe_of_ready {s : State} (hready : s.encodeReady) (hfits : s.fits (frameBytes s)) :
    exec .encframe s = .next (afterAppend s (frameBytes s)) := by
  obtain ⟨hmax, hw, hh, -⟩ := id hready
  rw [exec_encframe_of_image hmax hw hh, finish_appendOutput hready hfits]

/-- Settles O51: the band is its segments in the order of their indices. -/
theorem encbandAppendsBand : Obligations.EncbandAppendsBand := by
  unfold Obligations.EncbandAppendsBand
  intro s b hready hb hfits
  exact ⟨_, exec_encband_of_ready hready hb hfits, appended_afterAppend hfits⟩

/-- Settles O52: the frame is its bands from top to bottom. -/
theorem encframeAppendsBands : Obligations.EncframeAppendsBands := by
  unfold Obligations.EncframeAppendsBands
  rintro s out hready rfl hfits
  exact ⟨_, exec_encframe_of_ready hready hfits, appended_afterAppend hfits⟩

/-! One append after the other. -/

section Append
variable {s : State} {xs ys : List Byte}

/-- OUT_LEN after an append that fits does not wrap (R178). -/
theorem afterAppend_outLen (h : s.fits xs) : (afterAppend s xs).regs.outLen.toNat = s.regs.outLen.toNat + xs.length := by
  obtain ⟨-, -, hlen, -⟩ := appended_afterAppend h
  exact hlen

/-- What fits as a whole fits in two appends (R178). -/
theorem fits_afterAppend (h : s.fits (xs ++ ys)) : (afterAppend s xs).fits ys := by
  have hlen := h
  rw [State.fits, List.length_append] at hlen
  have hxs : s.fits xs := by
    rw [State.fits]
    omega
  change (afterAppend s xs).regs.outLen.toNat + ys.length ≤ s.regs.outCap.toNat
  rw [afterAppend_outLen hxs]
  omega

/-- Two appends are the append of both byte strings (R178). -/
theorem afterAppend_append (h : s.fits xs) : afterAppend (afterAppend s xs) ys = afterAppend s (xs ++ ys) := by
  have hmem : Memory.writeBytes (afterAppend s xs).mem
      (s.regs.outBase.toNat + (afterAppend s xs).regs.outLen.toNat) ys =
      Memory.writeBytes s.mem (s.regs.outBase.toNat + s.regs.outLen.toNat) (xs ++ ys) := by
    rw [afterAppend_outLen h, writeBytes_append, ← Nat.add_assoc]
    rfl
  have hlen : (afterAppend s xs).regs.outLen.toNat + ys.length = s.regs.outLen.toNat + (xs ++ ys).length := by
    rw [afterAppend_outLen h, List.length_append, Nat.add_assoc]
  calc afterAppend (afterAppend s xs) ys
    _ = ((s.setMem (Memory.writeBytes (afterAppend s xs).mem
          (s.regs.outBase.toNat + (afterAppend s xs).regs.outLen.toNat) ys)).setOutLen
          (BitVec.ofNat 32 ((afterAppend s xs).regs.outLen.toNat + ys.length))).complete := rfl
    _ = afterAppend s (xs ++ ys) := by rw [hmem, hlen, afterAppend]

/-- An append leaves the working region alone, so the encoder still emits the same bands (R65, R178). -/
theorem bandBytes_afterAppend (hready : s.encodeReady) (h : s.fits xs) (b : Nat) :
    bandBytes (afterAppend s xs) b = bandBytes s b := by
  obtain ⟨-, -, -, hdisjoint, -⟩ := hready
  obtain ⟨-, hother, -⟩ := appended_afterAppend h
  have himage : SameWorkingImage (afterAppend s xs) { afterAppend s xs with mem := s.mem } := by
    refine ⟨rfl, rfl, fun a hlo hhi => hother a ?_⟩
    have hnot : ¬ s.outWindow.contains a := not_contains_of_not_overlaps hdisjoint ⟨hlo, hhi⟩
    simp only [State.outWindow, Region.contains] at hnot
    rw [State.fits] at h
    omega
  exact himage.bandBytes_eq b

end Append

/-- The ENCBANDs of a list of bands append the bands one after the other (R176, R177). -/
theorem runCommands_encband (b : Nat) (bs : List Nat) : ∀ {s : State}, s.encodeReady →
    (∀ c ∈ b :: bs, c < s.numBands) → s.fits ((b :: bs).flatMap (bandBytes s)) →
    runCommands ((b :: bs).map .encband) s = .next (afterAppend s ((b :: bs).flatMap (bandBytes s))) := by
  induction bs generalizing b with
  | nil =>
    intro s hready hb hfits
    rw [List.flatMap_singleton] at hfits ⊢
    simp only [List.map_cons, List.map_nil, runCommands, exec_encband_of_ready hready (hb b List.mem_cons_self) hfits]
  | cons c bs ih =>
    intro s hready hb hfits
    rw [List.flatMap_cons] at hfits ⊢
    have hfirst : s.fits (bandBytes s b) := by
      rw [State.fits, List.length_append] at hfits
      rw [State.fits]
      omega
    have hsame : bandBytes (afterAppend s (bandBytes s b)) = bandBytes s :=
      funext (bandBytes_afterAppend hready hfirst)
    have hrest := ih c (s := afterAppend s (bandBytes s b)) hready (fun d hd => hb d (List.mem_cons_of_mem b hd))
      (by rw [hsame]; exact fits_afterAppend hfits)
    rw [hsame, afterAppend_append hfirst] at hrest
    rw [List.map_cons, runCommands, exec_encband_of_ready hready (hb b List.mem_cons_self) hfirst]
    exact hrest

/-- Settles O59: both ways append the frame, and an image has at least one band. -/
theorem bandsMakeTheFrame : Obligations.BandsMakeTheFrame := by
  unfold Obligations.BandsMakeTheFrame
  intro s hready hfits
  refine ⟨_, exec_encframe_of_ready hready hfits, rfl, ?_⟩
  obtain ⟨-, -, hh, -⟩ := id hready
  obtain ⟨b, bs, hbands⟩ : ∃ b bs, List.range s.numBands = b :: bs := by
    refine List.exists_cons_of_ne_nil fun hnone => ?_
    rw [List.range_eq_nil, State.numBands] at hnone
    omega
  rw [frameBytes, hbands] at hfits ⊢
  exact runCommands_encband b bs hready (fun c hc => List.mem_range.mp (hbands ▸ hc)) hfits

end Sys2Proof.Machine
end

section
/-! PROOFS. Where the encoder commands end with an error (R179 to R182, R224). -/
namespace Sys2Proof.Machine

section Errors
variable {s : State} {pc b : Nat}

/-- Without a palette every encoder command ends with PRECOND (R179 to R182). -/
theorem exec_encoder_of_noPalette (h : s.maxIndex = 0) :
    ∀ i ∈ [Instr.sixchar pc b, .encseg pc b, .encband b, .encframe], exec i s = .next (errorState s .precond) := by
  simp only [List.mem_cons, List.not_mem_nil, or_false, forall_eq_or_imp, forall_eq]
  refine ⟨?_, ?_, ?_, ?_⟩
  · rw [exec_sixchar, execSixchar, if_pos (.inl h), finish_error]
  · rw [exec_encseg, execEncseg, if_pos (.inl h), finish_error]
  · rw [exec_encband, execEncband, if_pos h, finish_error]
  · rw [exec_encframe, execEncframe, if_pos h, finish_error]

/-- So do SIXCHAR and ENCSEG for an index above the palette (R179, R180). -/
theorem exec_encoder_of_indexAbove (h : s.maxIndex < pc) :
    ∀ i ∈ [Instr.sixchar pc b, .encseg pc b], exec i s = .next (errorState s .precond) := by
  simp only [List.mem_cons, List.not_mem_nil, or_false, forall_eq_or_imp, forall_eq]
  refine ⟨?_, ?_⟩
  · rw [exec_sixchar, execSixchar, if_pos (.inr h), finish_error]
  · rw [exec_encseg, execEncseg, if_pos (.inr h), finish_error]

/-- An empty image is the next error (R179 to R182, R224). -/
theorem exec_encoder_of_emptyImage (hmax : s.maxIndex ≠ 0) (hpc : pc ≤ s.maxIndex) (h : s.emptyImage) :
    ∀ i ∈ [Instr.sixchar pc b, .encseg pc b, .encband b, .encframe], exec i s = .next (errorState s .config) := by
  have hindex : ¬ (s.maxIndex = 0 ∨ s.maxIndex < pc) := not_or.mpr ⟨hmax, Nat.not_lt.mpr hpc⟩
  simp only [List.mem_cons, List.not_mem_nil, or_false, forall_eq_or_imp, forall_eq]
  refine ⟨?_, ?_, ?_, ?_⟩
  · rw [exec_sixchar, execSixchar, if_neg hindex, if_pos h, finish_error]
  · rw [exec_encseg, execEncseg, if_neg hindex, if_pos (.inl h), finish_error]
  · rw [exec_encband, execEncband, if_neg hmax, if_pos (.inl h), finish_error]
  · rw [exec_encframe, execEncframe, if_neg hmax, if_pos h, finish_error]

/-- A band or a column outside the image is the error after it for SIXCHAR (R179). -/
theorem exec_sixchar_of_outside (hmax : s.maxIndex ≠ 0) (hpc : pc ≤ s.maxIndex)
    (h : s.numBands ≤ b ∨ s.imgW ≤ s.regs.arg0.toNat) : exec (.sixchar pc b) s = .next (errorState s .config) := by
  rw [exec_sixchar, execSixchar, if_neg (not_or.mpr ⟨hmax, Nat.not_lt.mpr hpc⟩)]
  by_cases hempty : s.emptyImage
  · rw [if_pos hempty, finish_error]
  · rw [if_neg hempty, if_pos h, finish_error]

/-- A band outside the image is the same error as an empty image (R179 to R181). -/
theorem exec_encoder_of_noBand (hmax : s.maxIndex ≠ 0) (hpc : pc ≤ s.maxIndex) (h : s.numBands ≤ b) :
    ∀ i ∈ [Instr.sixchar pc b, .encseg pc b, .encband b], exec i s = .next (errorState s .config) := by
  simp only [List.mem_cons, List.not_mem_nil, or_false, forall_eq_or_imp, forall_eq]
  refine ⟨exec_sixchar_of_outside hmax hpc (.inl h), ?_, ?_⟩
  · rw [exec_encseg, execEncseg, if_neg (not_or.mpr ⟨hmax, Nat.not_lt.mpr hpc⟩), if_pos (.inr h), finish_error]
  · rw [exec_encband, execEncband, if_neg hmax, if_pos (.inr h), finish_error]

/-- What SIXCHAR is left with once its indices are good (R179). -/
theorem exec_sixchar_of_indices (hmax : s.maxIndex ≠ 0) (hpc : pc ≤ s.maxIndex) (hw : s.imgW ≠ 0) (hh : s.imgH ≠ 0)
    (hb : b < s.numBands) (hcolumn : s.regs.arg0.toNat < s.imgW) :
    exec (.sixchar pc b) s = finish s (
      if s.dbufRegion.passes s.memSize then .error .bus else
      .ok ((s.setResult0 (BitVec.setWidth 32 (sixChar s b pc s.regs.arg0.toNat))).setResult1
        (BitVec.ofNat 32 (sixMask s b pc s.regs.arg0.toNat)))) := by
  rw [exec_sixchar, execSixchar, if_neg (not_or.mpr ⟨hmax, Nat.not_lt.mpr hpc⟩), if_neg (not_or.mpr ⟨hw, hh⟩),
    if_neg (not_or.mpr ⟨Nat.not_le.mpr hb, Nat.not_le.mpr hcolumn⟩)]

/-- Overlapping regions are the first error of the regions (R65, R224). -/
theorem checkEncoder_config {α : Type} (h : s.dbufRegion.overlaps s.outWindow) (k : Except CmdError α) :
    checkEncoder s k = .error .config := if_pos h

/-- A region past MEM_SIZE is the error after it (R64, R224). -/
theorem checkEncoder_bus {α : Type} (hdisjoint : ¬ s.dbufRegion.overlaps s.outWindow)
    (hpast : s.memSize < s.dbufRegion.hi ∨ s.memSize < s.outWindow.hi) (k : Except CmdError α) :
    checkEncoder s k = .error .bus := by
  rw [checkEncoder, if_neg hdisjoint]
  exact if_pos hpast

/-- An append past the output window is the last error (R178, R224). -/
theorem finish_overflow {out : List Byte} (hready : s.encodeReady)
    (h : s.regs.outCap.toNat < s.regs.outLen.toNat + out.length) :
    finish s (checkEncoder s (appendOutput s out)) = .next (errorState s .outOverflow) := by
  rcases appendOutput_cases s out with ⟨-, happend⟩ | ⟨hfits, -⟩
  · rw [checkEncoder_of_ready hready, happend, finish_error]
  · exact absurd hfits (Nat.not_le.mpr h)

end Errors

/-- Settles O53: the checks of the indices command by command, those of the regions and the length for all three
appending commands at once. -/
theorem encoderErrors : Obligations.EncoderErrors := by
  unfold Obligations.EncoderErrors
  intro s pc b
  refine ⟨exec_encoder_of_noPalette, exec_encoder_of_indexAbove, fun hmax hpc =>
    ⟨exec_encoder_of_emptyImage hmax hpc, exec_encoder_of_noBand hmax hpc,
      fun hcolumn => exec_sixchar_of_outside hmax hpc (.inr hcolumn), fun hw hh hb =>
        ⟨fun hcolumn hpast => ?_, fun i out hi => ?_⟩⟩⟩
  · rw [exec_sixchar_of_indices hmax hpc hw hh hb hcolumn,
      if_pos (show s.dbufRegion.passes s.memSize from hpast), finish_error]
  · have hexec : exec i s = finish s (checkEncoder s (appendOutput s out)) := by
      simp only [List.mem_cons, List.not_mem_nil, or_false, Prod.mk.injEq] at hi
      rcases hi with ⟨rfl, rfl⟩ | ⟨rfl, rfl⟩ | ⟨rfl, rfl⟩
      · exact exec_encseg_of_indices hmax hpc hw hh hb
      · exact exec_encband_of_indices hmax hw hh hb
      · exact exec_encframe_of_image hmax hw hh
    rw [hexec]
    refine ⟨fun hoverlap => ?_, fun hdisjoint hpast => ?_, finish_overflow⟩
    · rw [checkEncoder_config hoverlap, finish_error]
    · rw [checkEncoder_bus hdisjoint hpast, finish_error]

end Sys2Proof.Machine
end

section
/-! PROOFS. The bits of a sixel mask (R171, R185), and SIXCHAR (R179). -/
namespace Sys2Proof.Machine

/-- Whether band row k is in the image and its pixel in column c has the index (R171). -/
def rowHolds (s : State) (b pc c k : Nat) : Bool := decide (6 * b + k < s.imgH ∧ s.pixel (6 * b + k) c = pc)

theorem maskBit_eq (s : State) (b pc c k : Nat) : maskBit s b pc c k = 2 ^ k * (rowHolds s b pc c k).toNat := by
  unfold maskBit rowHolds
  split <;> simp [*]

/-- The mask is the number whose bits say which rows of the band hold the index (R171). -/
theorem sixMask_eq_ofBits (s : State) (b pc c : Nat) :
    sixMask s b pc c = Nat.ofBits fun k : Fin 6 => rowHolds s b pc c k := by
  simp only [sixMask, maskBit_eq, Nat.ofBits_succ, Nat.ofBits_zero, Function.comp_apply, Fin.val_succ, Fin.val_zero,
    Nat.reduceAdd]
  omega

/-- Settles O58: bit k stands for the index alone. -/
theorem valuesAboveMaxSetNoBit : Obligations.ValuesAboveMaxSetNoBit := by
  unfold Obligations.ValuesAboveMaxSetNoBit
  intro s b pc c k hpc hk habove
  have hother : ¬ s.pixel (6 * b + k) c = pc := by omega
  rw [sixMask_eq_ofBits, Nat.testBit_ofBits_lt _ _ hk]
  exact decide_eq_false fun h => hother h.2

/-- The mask as the sum over the rows of the band, with the pixels' addresses (R63, R171). -/
theorem sixMask_eq_sum (s : State) (b pc c : Nat) : sixMask s b pc c =
    ((List.range 6).map fun k =>
      if 6 * b + k < s.imgH ∧ (s.byteAt (s.regs.dbufBase.toNat + (6 * b + k) * s.imgW + c)).toNat = pc
      then 2 ^ k else 0).sum := by
  change _ = ((List.range 6).map (maskBit s b pc c)).sum
  simp only [List.range_succ, List.range_zero, List.nil_append, List.cons_append, List.map_cons, List.map_nil,
    List.sum_cons, List.sum_nil, sixMask]
  omega

/-- The sixel character as a word (R171, R179). -/
theorem sixChar_setWidth (s : State) (b pc c : Nat) :
    BitVec.setWidth 32 (sixChar s b pc c) = BitVec.ofNat 32 (0x3F + sixMask s b pc c) := by
  rw [← BitVec.ofNat_toNat, sixChar_toNat]

/-- Settles O49: past its checks SIXCHAR leaves the mask and its character. -/
theorem sixcharResult : Obligations.SixcharResult := by
  unfold Obligations.SixcharResult
  rintro s pc b m hmax hpc hw hh hb hcolumn hbus rfl
  rw [← sixMask_eq_sum, exec_sixchar_of_indices hmax hpc hw hh hb hcolumn, if_neg (Nat.not_lt.mpr hbus),
    sixChar_setWidth, finish_results]

end Sys2Proof.Machine
end

section
/-! PROOFS. The edge scan column by column (R172), its list as runs, and what holds of every edge list (R173). -/
namespace Sys2Proof.Machine

/-! Run lengths and runs (R174). -/

theorem runLengths_cons (p q : Nat) (ps : List Nat) : runLengths (p :: q :: ps) = (q - p) :: runLengths (q :: ps) := rfl

theorem length_runLengths (pos : List Nat) : (runLengths pos).length = pos.length - 1 := by simp [runLengths]

/-- One more position adds the length of the run that ends there. -/
theorem runLengths_concat (q r : Nat) : ∀ ps : List Nat,
    runLengths (ps ++ [q] ++ [r]) = runLengths (ps ++ [q]) ++ [r - q]
  | [] => rfl
  | [_] => rfl
  | p :: p' :: ps => congrArg ((p' - p) :: ·) (runLengths_concat q r (p' :: ps))

/-- The runs of an edge list: lengths with their characters (R174). -/
def runsOf (pos : List Nat) (val : List Byte) : List (Nat × Byte) := (runLengths pos).zip val

/-- One more position and character add one run. -/
theorem runsOf_concat {ps : List Nat} {vs : List Byte} (h : vs.length = ps.length) (q r : Nat) (v : Byte) :
    runsOf (ps ++ [q] ++ [r]) (vs ++ [v]) = runsOf (ps ++ [q]) vs ++ [(r - q, v)] := by
  have hlen : (runLengths (ps ++ [q])).length = vs.length := by simp [length_runLengths, h]
  rw [runsOf, runLengths_concat, List.zip_append hlen]
  rfl

/-- The columns that runs cover. -/
def columnsOf (rs : List (Nat × Byte)) : List Byte := rs.flatMap fun r => List.replicate r.1 r.2

theorem columnsOf_concat (rs : List (Nat × Byte)) (len : Nat) (v : Byte) :
    columnsOf (rs ++ [(len, v)]) = columnsOf rs ++ List.replicate len v := by simp [columnsOf]

/-! The scan. -/

/-- What the scan has found after `n` columns, with `n` in the place of the sentinel (R172). -/
structure Scanned (ch : Nat → Byte) (n : Nat) (e : EdgeScan) : Prop where
  paired : e.paired
  carried : e.val.getLast?.getD 0x00#8 = e.carry
  first : (e.pos ++ [n]).head? = some 0
  rising : (e.pos ++ [n]).Pairwise (· < ·)
  differ : e.val.IsChain (· ≠ ·)
  sampled : ∀ v ∈ e.val, ∃ c, ch c = v
  columns : columnsOf (runsOf (e.pos ++ [n]) e.val) = (List.range n).map ch

namespace Scanned
variable {ch : Nat → Byte} {n : Nat} {e : EdgeScan}

/-- Before the first column nothing is found (R172). -/
theorem start : Scanned ch 0 { carry := 0x00#8, pos := [], val := [] } where
  paired := rfl
  carried := rfl
  first := rfl
  rising := List.pairwise_singleton _ _
  differ := .nil
  sampled := fun _ hv => absurd hv List.not_mem_nil
  columns := rfl

/-- A column of another character begins a run (R172). -/
theorem edge (h : Scanned ch n e) (hne : ch n ≠ e.carry) :
    Scanned ch (n + 1) { carry := ch n, pos := e.pos ++ [n], val := e.val ++ [ch n] } where
  paired := by simpa [EdgeScan.paired] using h.paired
  carried := by simp
  first := by rw [List.head?_append, h.first]; rfl
  rising := by
    refine List.pairwise_append.mpr ⟨h.rising, List.pairwise_singleton _ _, fun p hp q hq => ?_⟩
    obtain ⟨-, -, hlast⟩ := List.pairwise_append.mp h.rising
    rw [List.mem_singleton] at hq
    rcases List.mem_append.mp hp with hp | hp
    · have := hlast p hp n (List.mem_singleton_self n)
      omega
    · rw [List.mem_singleton] at hp
      omega
  differ := by
    refine List.isChain_append.mpr ⟨h.differ, .singleton _, fun v hv x hx => ?_⟩
    have hcarry : v = e.carry := by rw [← h.carried, Option.mem_def.mp hv]; rfl
    have hchar : ch n = x := by simpa using hx
    rw [hcarry, ← hchar]
    exact hne.symm
  sampled := fun v hv => (List.mem_append.mp hv).elim (h.sampled v) fun hv => ⟨n, (List.mem_singleton.mp hv).symm⟩
  columns := by
    rw [runsOf_concat h.paired, columnsOf_concat, h.columns, List.range_succ, List.map_append, Nat.add_sub_cancel_left]
    rfl

/-- A column of the carried character, which is not the initial carry, makes the last run longer (R172). -/
theorem longer (h : Scanned ch n e) (heq : ch n = e.carry) (hch : ch n ≠ 0x00#8) : Scanned ch (n + 1) e := by
  obtain ⟨carry, pos, val⟩ := e
  obtain ⟨hpaired, hcarried, hfirst, hrising, hdiffer, hsampled, hcolumns⟩ := h
  dsimp only [EdgeScan.paired] at *
  rcases List.eq_nil_or_concat' val with rfl | ⟨vs, v, rfl⟩
  · exact absurd (heq.trans hcarried.symm) hch
  rcases List.eq_nil_or_concat' pos with rfl | ⟨ps, q, rfl⟩
  · simp at hpaired
  have hv : v = ch n := by simpa [heq] using hcarried
  have hlen : vs.length = ps.length := by simpa using hpaired
  obtain ⟨hpos, -, hlast⟩ := List.pairwise_append.mp hrising
  have hq : q < n := hlast q (by simp) n (List.mem_singleton_self n)
  refine ⟨hpaired, hcarried, ?_, ?_, hdiffer, hsampled, ?_⟩
  · rw [List.head?_append_of_ne_nil _ (by simp)] at hfirst ⊢
    exact hfirst
  · refine List.pairwise_append.mpr ⟨hpos, List.pairwise_singleton _ _, fun p hp r hr => ?_⟩
    have := hlast p hp n (List.mem_singleton_self n)
    rw [List.mem_singleton] at hr
    omega
  · have hsucc : n + 1 - q = (n - q) + 1 := by omega
    rw [runsOf_concat hlen, columnsOf_concat] at hcolumns ⊢
    rw [hsucc, List.replicate_succ', ← List.append_assoc, hcolumns, List.range_succ, List.map_append, hv]
    rfl

theorem column (h : Scanned ch n e) (hch : ch n ≠ 0x00#8) : Scanned ch (n + 1) (scanColumn ch n e) := by
  unfold scanColumn
  split
  · next heq => exact h.longer heq hch
  · next hne => exact h.edge hne

end Scanned

/-- The scan of a row whose characters differ from the initial carry (R172). -/
theorem scanned_scanRow {ch : Nat → Byte} {k w : Nat} (hk : 1 ≤ k) (hch : ∀ c, c < w → ch c ≠ 0x00#8) :
    Scanned ch w (scanRow ch k w) := by
  rw [scanRow_eq_columns ch w hk]
  exact forUpTo_induct (Scanned ch) _ w _ .start fun c _ hc h => h.column (hch c hc)

/-- Neighbours that differ, by their indices. -/
theorem getElem?_ne_of_isChain {vs : List Byte} (h : vs.IsChain (· ≠ ·)) {i : Nat} (hi : i + 1 < vs.length) :
    vs[i]? ≠ vs[i + 1]? := by
  rw [List.getElem?_eq_getElem hi, List.getElem?_eq_getElem (Nat.lt_of_succ_lt hi), ne_eq, Option.some.injEq]
  exact List.isChain_iff_getElem.mp h i hi

/-- Settles O55, from what the scan has found after the last column. -/
theorem edgeListShape : Obligations.EdgeListShape := by
  unfold Obligations.EdgeListShape
  intro ch k w hk _ hch
  have hscan := scanned_scanRow hk hch
  obtain ⟨hpaired, hsentinel⟩ := edges_consistent ch k w
  exact ⟨hscan.first, hscan.rising, hsentinel, hpaired, fun _ => getElem?_ne_of_isChain hscan.differ⟩

end Sys2Proof.Machine
end

section
/-! PROOFS. Reading run data back (R183): counts, runs, and the sixel characters of a segment. -/
namespace Sys2Proof.Machine

/-! The bytes of a number (R9, R11). -/

theorem digitByte_toNat {d : Nat} (hd : d < 10) : (digitByte d).toNat = 0x30 + d := by
  simp only [digitByte, BitVec.toNat_ofNat]
  omega

/-- A number is written in digits only (R9, R11). -/
theorem toNat_of_mem_dec {n : Nat} (hn : 1 ≤ n) {x : Byte} (hx : x ∈ dec n) : 0x30 ≤ x.toNat ∧ x.toNat ≤ 0x39 := by
  rw [dec_eq_digits hn] at hx
  obtain ⟨d, hd, rfl⟩ := List.mem_map.mp hx
  have hlt : d < 10 := Nat.digits_lt_base (by omega) (List.mem_reverse.mp hd)
  rw [digitByte_toNat hlt]
  omega

/-- A count takes its digits one after the other. -/
theorem takeCount_digits (tail : List Byte) : ∀ (ds : List Nat) (n : Nat), (∀ d ∈ ds, d < 10) →
    takeCount n (ds.map digitByte ++ tail) = takeCount (ds.foldl (fun a d => a * 10 + d) n) tail
  | [], _, _ => rfl
  | d :: ds, n, h => by
    obtain ⟨hd, hds⟩ := List.forall_mem_cons.mp h
    have hbyte := digitByte_toNat hd
    rw [List.map_cons, List.cons_append, takeCount, if_pos (by omega), takeCount_digits tail ds _ hds, hbyte,
      Nat.add_sub_cancel_left, List.foldl_cons]

/-- A count ends at the character after it (R183). -/
theorem takeCount_dec {n : Nat} (hn : 1 ≤ n) {v : Byte} (hv : 0x3F ≤ v.toNat) (rest : List Byte) :
    takeCount 0 (dec n ++ v :: rest) = (n, v :: rest) := by
  have hlt : ∀ d ∈ (Nat.digits 10 n).reverse, d < 10 := fun d hd =>
    Nat.digits_lt_base (by omega) (List.mem_reverse.mp hd)
  have hvalue : (Nat.digits 10 n).reverse.foldl (fun a d => a * 10 + d) 0 = n := by
    rw [List.foldl_reverse]
    conv_rhs => rw [← Nat.ofDigits_digits 10 n, Nat.ofDigits_eq_foldr]
    simp only [Nat.cast_id, Nat.mul_comm, Nat.add_comm]
  rw [dec_eq_digits hn, takeCount_digits _ _ _ hlt, hvalue, takeCount, if_neg (by omega)]

/-! Runs of sixel characters (R171, R174). -/

/-- The bytes that stand for six pixels (R171). -/
def sixelByte (v : Byte) : Prop := 0x3F ≤ v.toNat ∧ v.toNat ≤ 0x7E

theorem sixelByte_sixChar (s : State) (b pc c : Nat) : sixelByte (sixChar s b pc c) := by
  have hmask := sixMask_le s b pc c
  rw [sixelByte, sixChar_toNat]
  omega

/-- No sixel character is '!' (R183). -/
theorem sixelByte.ne_bang {v : Byte} (h : sixelByte v) : v ≠ 0x21#8 := by
  rintro rfl
  exact absurd h.1 (by decide)

/-- No sixel character is the initial carry (R172). -/
theorem sixChar_ne_zero (s : State) (b pc c : Nat) : sixChar s b pc c ≠ 0x00#8 := by
  intro hzero
  have hchar := sixelByte_sixChar s b pc c
  rw [hzero] at hchar
  exact absurd hchar.1 (by decide)

/-- A run is made of its character, of '!' and of digits (R174). -/
theorem mem_runBytes {len : Nat} {v x : Byte} (hx : x ∈ runBytes len v) :
    x = v ∨ x = 0x21#8 ∨ (0x30 ≤ x.toNat ∧ x.toNat ≤ 0x39) := by
  rcases Nat.lt_or_ge 3 len with hlen | hlen
  · rw [runBytes_counted v hlen] at hx
    rcases List.mem_append.mp hx with hx | hx
    · rcases List.mem_append.mp hx with hx | hx
      · exact .inr (.inl (List.mem_singleton.mp hx))
      · exact .inr (.inr (toNat_of_mem_dec (by omega) hx))
    · exact .inl (List.mem_singleton.mp hx)
  · rw [runBytes_literal v hlen] at hx
    exact .inl (List.eq_of_mem_replicate hx)

/-- The only '!' of a run stands at the head of a counted one (R174, R183). -/
theorem runBytes_eq_append_bang {len : Nat} {v : Byte} (hv : sixelByte v) {before after : List Byte}
    (h : runBytes len v = before ++ 0x21#8 :: after) : 4 ≤ len ∧ after = dec len ++ [v] := by
  rcases Nat.lt_or_ge 3 len with hlen | hlen
  · rw [runBytes_counted v hlen] at h
    cases before with
    | nil => exact ⟨hlen, (List.cons.inj h).2.symm⟩
    | cons x before =>
      have htail : dec len ++ [v] = before ++ 0x21#8 :: after := (List.cons.inj h).2
      have hbang : 0x21#8 ∈ dec len ++ [v] := htail ▸ List.mem_append_right _ List.mem_cons_self
      rcases List.mem_append.mp hbang with hdigit | hchar
      · exact absurd (toNat_of_mem_dec (by omega) hdigit).1 (by decide)
      · exact absurd (List.mem_singleton.mp hchar).symm hv.ne_bang
  · rw [runBytes_literal v hlen] at h
    have hbang : 0x21#8 ∈ List.replicate len v := h ▸ List.mem_append_right _ List.mem_cons_self
    exact absurd (List.eq_of_mem_replicate hbang).symm hv.ne_bang

/-- The bytes of runs one after the other (R174). -/
def runData (rs : List (Nat × Byte)) : List Byte := rs.flatMap fun r => runBytes r.1 r.2

theorem runData_cons (r : Nat × Byte) (rs : List (Nat × Byte)) :
    runData (r :: rs) = runBytes r.1 r.2 ++ runData rs := List.flatMap_cons

theorem columnsOf_cons (r : Nat × Byte) (rs : List (Nat × Byte)) :
    columnsOf (r :: rs) = List.replicate r.1 r.2 ++ columnsOf rs := List.flatMap_cons

/-- The compressor writes the runs of its edge list (R174). -/
theorem rle_eq_runData : ∀ (pos : List Nat) (val : List Byte), rle pos val = runData (runsOf pos val)
  | p :: q :: ps, v :: vs => by
    rw [rle_cons, rle_eq_runData (q :: ps) vs]
    rfl
  | [], _ => rfl
  | [_], _ => rfl
  | _ :: _ :: _, [] => rfl

/-! Expansion (R183). -/

/-- A literal run expands to itself, a turn for each byte. -/
theorem expandRuns_replicate {v : Byte} (hv : v ≠ 0x21#8) (n : Nat) (rest : List Byte) : ∀ len,
    expandRuns (n + len) (List.replicate len v ++ rest) = List.replicate len v ++ expandRuns n rest
  | 0 => rfl
  | len + 1 => by
    rw [List.replicate_succ, List.cons_append, ← Nat.add_assoc, expandRuns, if_neg hv,
      expandRuns_replicate hv n rest len, List.cons_append]

/-- A counted run expands to its columns in one turn. -/
theorem expandRuns_counted {len : Nat} (hlen : 1 ≤ len) {v : Byte} (hv : sixelByte v) (n : Nat) (rest : List Byte) :
    expandRuns (n + 1) (0x21#8 :: (dec len ++ v :: rest)) = List.replicate len v ++ expandRuns n rest := by
  rw [expandRuns, if_pos rfl, takeCount_dec hlen hv.1]

/-- With a turn for each byte a run expands to its columns, and a turn for each byte after it is left. -/
theorem expandRuns_runBytes (len : Nat) {v : Byte} (hv : sixelByte v) (rest : List Byte) {n : Nat}
    (hn : (runBytes len v ++ rest).length ≤ n) : ∃ m, rest.length ≤ m ∧
      expandRuns n (runBytes len v ++ rest) = List.replicate len v ++ expandRuns m rest := by
  rw [List.length_append] at hn
  rcases Nat.lt_or_ge 3 len with hlen | hlen
  · rw [runBytes_counted v hlen] at hn ⊢
    simp only [List.cons_append, List.nil_append, List.append_assoc, List.length_cons] at hn ⊢
    obtain ⟨m, rfl⟩ := Nat.exists_eq_add_of_le' (show 1 ≤ n by omega)
    exact ⟨m, by omega, expandRuns_counted (by omega) hv m rest⟩
  · rw [runBytes_literal v hlen] at hn ⊢
    rw [List.length_replicate] at hn
    obtain ⟨m, rfl⟩ := Nat.exists_eq_add_of_le' (show len ≤ n by omega)
    exact ⟨m, by omega, expandRuns_replicate hv.ne_bang m rest len⟩

/-- Runs expand to the columns they cover. -/
theorem expandRuns_runData (rs : List (Nat × Byte)) (hrs : ∀ r ∈ rs, sixelByte r.2) : ∀ {n : Nat},
    (runData rs).length ≤ n → expandRuns n (runData rs) = columnsOf rs := by
  induction rs with
  | nil => rintro (_ | n) _ <;> rfl
  | cons r rs ih =>
    intro n hn
    obtain ⟨hr, hrest⟩ := List.forall_mem_cons.mp hrs
    rw [runData_cons] at hn ⊢
    obtain ⟨m, hm, hexpand⟩ := expandRuns_runBytes r.1 hr _ hn
    rw [hexpand, ih hrest hm, columnsOf_cons]

/-- Every '!' of run data is followed by a count of at least 4 and its character (R183). -/
theorem runData_eq_append_bang (rs : List (Nat × Byte)) (hrs : ∀ r ∈ rs, sixelByte r.2) :
    ∀ {before after : List Byte}, runData rs = before ++ 0x21#8 :: after →
      ∃ len v rest, 4 ≤ len ∧ after = dec len ++ v :: rest ∧ sixelByte v := by
  induction rs with
  | nil =>
    intro before after h
    exact absurd h.symm (List.append_ne_nil_of_right_ne_nil before (List.cons_ne_nil _ _))
  | cons r rs ih =>
    intro before after h
    obtain ⟨hr, hrest⟩ := List.forall_mem_cons.mp hrs
    rw [runData_cons] at h
    rcases List.append_eq_append_iff.mp h with ⟨before', -, hlater⟩ | ⟨run', hrun, hafter⟩
    · exact ih hrest hlater
    · cases run' with
      | nil => exact ih hrest (before := []) hafter.symm
      | cons x tail =>
        obtain ⟨rfl, rfl⟩ := List.cons.inj hafter
        obtain ⟨hlen, rfl⟩ := runBytes_eq_append_bang hr hrun
        exact ⟨r.1, r.2, runData rs, hlen, by simp, hr⟩

/-! The runs of a segment (R172, R175). -/

/-- The runs of a band's edge list for an index. -/
def segmentRuns (s : State) (b pc : Nat) : List (Nat × Byte) := runsOf (bandEdges s b pc).pos (bandEdges s b pc).val

/-- What the scan of a band's row has found after its last column (R171, R172). -/
theorem scanned_band (s : State) (b pc : Nat) :
    Scanned (sixChar s b pc) s.imgW (scanRow (sixChar s b pc) (Params.lanes s.params) s.imgW) :=
  scanned_scanRow (Nat.succ_pos _) fun c _ => sixChar_ne_zero s b pc c

theorem columnsOf_segmentRuns (s : State) (b pc : Nat) :
    columnsOf (segmentRuns s b pc) = (List.range s.imgW).map (sixChar s b pc) := (scanned_band s b pc).columns

theorem sixelByte_of_mem_segmentRuns {s : State} {b pc : Nat} {r : Nat × Byte} (hr : r ∈ segmentRuns s b pc) :
    sixelByte r.2 := by
  obtain ⟨c, hc⟩ := (scanned_band s b pc).sampled r.2 (List.of_mem_zip hr).2
  exact hc ▸ sixelByte_sixChar s b pc c

/-- No byte of run data frames a segment (R175, R183). -/
theorem runData_noFraming {rs : List (Nat × Byte)} (hrs : ∀ r ∈ rs, sixelByte r.2) {x : Byte} (hx : x ∈ runData rs) :
    x ≠ 0x23#8 ∧ x ≠ 0x24#8 ∧ x ≠ 0x2D#8 := by
  obtain ⟨r, hr, hx⟩ := List.mem_flatMap.mp hx
  have hnat : 0x3F ≤ x.toNat ∨ x.toNat = 0x21 ∨ (0x30 ≤ x.toNat ∧ x.toNat ≤ 0x39) := by
    rcases mem_runBytes hx with rfl | rfl | hdigit
    · exact .inl (hrs r hr).1
    · exact .inr (.inl rfl)
    · exact .inr (.inr hdigit)
  refine ⟨?_, ?_, ?_⟩ <;> rintro rfl <;> simp at hnat

/-- Settles O56: the segment's runs expand to the columns the scan has covered. -/
theorem runDataRoundTrip : Obligations.RunDataRoundTrip := by
  unfold Obligations.RunDataRoundTrip
  rintro s b pc run rfl
  have hchars : ∀ r ∈ segmentRuns s b pc, sixelByte r.2 := fun r => sixelByte_of_mem_segmentRuns
  rw [rle_eq_runData]
  change expandRuns (runData (segmentRuns s b pc)).length (runData (segmentRuns s b pc)) = _ ∧ _
  refine ⟨?_, fun x hx => runData_noFraming hchars hx, fun before after h => ?_⟩
  · rw [expandRuns_runData _ hchars le_rfl, columnsOf_segmentRuns]
  · obtain ⟨len, v, rest, hlen, hafter, hv⟩ := runData_eq_append_bang _ hchars h
    exact ⟨len, v, rest, hlen, hafter, dec_head_ne_zero (by omega), hv⟩

end Sys2Proof.Machine
end

section
/-! PROOFS. How long a segment and a band are (R184). -/
namespace Sys2Proof.Machine

theorem length_runBytes (len : Nat) (v : Byte) : (runBytes len v).length = runCost len := by
  rcases Nat.lt_or_ge 3 len with hlen | hlen
  · rw [runBytes_counted v hlen, runCost, if_neg (Nat.not_le.mpr hlen)]
    simp only [List.length_append, List.length_singleton]
    omega
  · rw [runBytes_literal v hlen, runCost, if_pos hlen, List.length_replicate]

/-- Run data costs what its lengths cost, when each has its character (R184). -/
theorem length_runData {pos : List Nat} {val : List Byte} (h : val.length + 1 = pos.length) :
    (runData (runsOf pos val)).length = ((runLengths pos).map runCost).sum := by
  have hlen : (runLengths pos).length ≤ val.length := by
    rw [length_runLengths]
    omega
  have hlengths : (runsOf pos val).map (fun r => runCost r.1) = (runLengths pos).map runCost := by
    conv_rhs => rw [← List.map_fst_zip hlen, List.map_map]
    rfl
  simp only [runData, List.length_flatMap, length_runBytes, hlengths]

/-- A segment is its introducer, its index, its runs and its end (R175, R184). -/
theorem length_segment (s : State) (b pc : Nat) : (segment s b pc).length =
    2 + (dec pc).length + ((runLengths (bandEdges s b pc).pos).map runCost).sum := by
  have hedges : EdgeList.consistent s.imgW (bandEdges s b pc) := edges_consistent _ _ _
  obtain ⟨hpaired, -⟩ := hedges
  rw [← length_runData hpaired, segment, rle_eq_runData]
  simp only [List.length_cons, List.length_append, List.length_nil]
  omega

/-- A row of one character is one run (R172). -/
theorem scanColumns_constant {v : Byte} (hv : v ≠ 0x00#8) : ∀ w,
    forUpTo (w + 1) (scanColumn fun _ => v) { carry := 0x00#8, pos := [], val := [] } =
      { carry := v, pos := [0], val := [v] }
  | 0 => if_neg hv
  | w + 1 => by
    rw [forUpTo, scanColumns_constant hv w]
    exact if_pos rfl

theorem edges_pos_constant {ch : Nat → Byte} {k w : Nat} (hk : 1 ≤ k) (hw : 1 ≤ w) (hzero : ch 0 ≠ 0x00#8)
    (hch : ∀ c, c < w → ch c = ch 0) : (edges ch k w).pos = [0, w] := by
  obtain ⟨n, rfl⟩ := Nat.exists_eq_add_of_le' hw
  rw [edges_congr hk hch, edges, scanRow_eq_columns _ _ hk, scanColumns_constant hzero]
  rfl

/-- A segment of one long run (R184). -/
theorem length_segment_constant {s : State} {b pc : Nat} (hw : 4 ≤ s.imgW)
    (hch : ∀ c, c < s.imgW → sixChar s b pc c = sixChar s b pc 0) :
    (segment s b pc).length = 4 + (dec s.imgW).length + (dec pc).length := by
  have hcost : runCost s.imgW = 2 + (dec s.imgW).length := if_neg (by omega)
  have hpos : (bandEdges s b pc).pos = [0, s.imgW] :=
    edges_pos_constant (Nat.succ_pos _) (by omega) (sixChar_ne_zero s b pc 0) hch
  rw [length_segment, hpos, runLengths_cons]
  simp only [runLengths, List.tail_cons, List.zipWith_nil_right, List.map_cons, List.map_nil, List.sum_cons,
    List.sum_nil, Nat.sub_zero, hcost]
  omega

/-- Settles O57: run by run, and for a band index by index. -/
theorem segmentLength : Obligations.SegmentLength := by
  unfold Obligations.SegmentLength
  refine ⟨length_segment, fun s b hw hch => ?_⟩
  have hsegments : (List.range (s.maxIndex + 1)).map (fun pc => (segment s b pc).length) =
      (List.range (s.maxIndex + 1)).map fun pc => 4 + (dec s.imgW).length + (dec pc).length :=
    List.map_congr_left fun pc hpc =>
      length_segment_constant hw fun c => hch pc c (Nat.lt_succ_iff.mp (List.mem_range.mp hpc))
  rw [bandBytes, List.length_flatMap, hsegments, List.sum_map_add]
  simp

end Sys2Proof.Machine
end

section
/-! PROOFS. The control command NOP (R210): the one word of opcode 0, and what completion leaves. -/
namespace Sys2Proof.Machine

/-- NOP alone has opcode 0 (R83). -/
theorem opcode_eq_zero_iff (i : Instr) : i.opcode = 0 ↔ i = .nop := by
  cases i <;> simp [Instr.opcode]

/-- A word whose low byte is zero has opcode 0 (R80). -/
theorem bitsOf_opcode_eq_zero {w : Word} (h : w &&& 0xFF#32 = 0#32) : bitsOf w 7 0 = 0 := by
  rw [← toNat_ushiftRight_and w (by decide)]
  exact congrArg BitVec.toNat h

/-- A word of opcode 0 that decodes is the encoding of NOP (R85, R210). -/
theorem eq_encode_nop_of_decode {w : Word} {i : Instr} (hop : bitsOf w 7 0 = 0) (h : decode w = .ok i) :
    w = encode .nop := by
  obtain ⟨hopcode, -, -⟩ := fields_of_decode h
  have hnop : i = .nop := (opcode_eq_zero_iff i).mp (hopcode.trans hop)
  rw [← encode_of_decode h, hnop]

theorem encode_nop : encode .nop = 0x00000000#32 := rfl

/-- Every other word of opcode 0 is illegal (R210). -/
theorem decode_error_of_opcode_zero {w : Word} (hop : bitsOf w 7 0 = 0) (hw : w ≠ 0#32) :
    ∃ e, decode w = .error e := by
  cases hdecode : decode w with
  | error e => exact ⟨e, rfl⟩
  | ok i => exact absurd ((eq_encode_nop_of_decode hop hdecode).trans encode_nop) hw

/-- NOP has no check and no effect: it completes (R210, R223). -/
theorem exec_nop (s : State) : exec .nop s = .next s.complete := finish_ok s s

/-- Settles O28: the word of NOP, its illegal neighbours by `encode_of_decode`, and completion written out. -/
theorem nopCompletes : Obligations.NopCompletes := by
  unfold Obligations.NopCompletes
  refine ⟨encode_nop, fun w hlow hw => decode_error_of_opcode_zero (bitsOf_opcode_eq_zero hlow) hw, fun s => ?_⟩
  rw [exec_nop, complete_eq_doneStatus]
  rfl

end Sys2Proof.Machine
end

section
/-! PROOFS. How a command ends (R221 to R223), the error INTERNAL that no command raises (R231), and the interrupt
line (R227). -/
namespace Sys2Proof.Machine

/-! Completion, with an error and without. -/

/-- FATAL comes with codes 3 and 4 only (R220, R222). -/
theorem fatal_iff (e : CmdError) : e.fatal = true ↔ e.code = 3#4 ∨ e.code = 4#4 := by
  simp [CmdError.fatal]

/-- FATAL after an error, by the error's code (R222). -/
theorem fail_fatal_eq (st : Status) (e : CmdError) :
    (st.fail e).fatal = if e.code = 3#4 ∨ e.code = 4#4 then true else st.fatal := by
  simp only [Status.fail, ← fatal_iff]
  cases e.fatal <;> simp

/-- Settles O24: FATAL is told by the code, every other field stands in the definition of its completion. -/
theorem completionStatus : Obligations.CompletionStatus := by
  unfold Obligations.CompletionStatus
  refine ⟨fun s e => ?_, fun _ => rfl, rfl, fun s e => (raiseError_eq_errorState s e).symm⟩
  rw [← fail_fatal_eq]
  rfl

/-! The interrupt line (R227). -/

theorem irq_iff (s : State) : s.irq = true ↔ (s.regs.status.done = true ∧ s.regs.ctrl.ieDone = true) ∨
    (s.regs.status.err = true ∧ s.regs.ctrl.ieErr = true) := by
  simp [State.irq]

/-- An error shows ERR without DONE, so that the line follows IE_ERR (R222). -/
theorem raiseError_irq (s : State) (e : CmdError) : (s.raiseError e).irq = s.regs.ctrl.ieErr := by
  simp [State.irq, Status.fail]

/-- Completion sets DONE and keeps ERR, so that without ERR the line follows IE_DONE (R223). -/
theorem complete_irq {s : State} (herr : s.regs.status.err = false) : s.complete.irq = s.regs.ctrl.ieDone := by
  simp [State.irq, Status.complete, herr]

/-- Settles O25: the equation, and the line after each change of STATUS. -/
theorem interruptLine : Obligations.InterruptLine := by
  unfold Obligations.InterruptLine
  intro s
  exact ⟨irq_iff s, raiseError_irq s, complete_irq, fun _ => irq_of_clear rfl rfl, irq_of_clear rfl rfl⟩

/-! Every command ends (R221, R222, R223). -/

/-- A completed effect leaves the frame of R223: STATUS shows DONE, and of the other registers at most the results and
OUT_LEN are new. -/
theorem Effect.complete_frame {s u : State} (h : Effect s u) :
    u.complete = { s with mem := u.mem, regs := { s.regs with
      status := doneStatus s, result0 := u.regs.result0, result1 := u.regs.result1, outLen := u.regs.outLen } } := by
  rw [h.frame]
  rfl

/-- Settles O26: every command ends through `finish`, and what it completes with is an effect. -/
theorem commandsEndPrecisely : Obligations.CommandsEndPrecisely := by
  unfold Obligations.CommandsEndPrecisely
  intro i s
  obtain ⟨r, hexec, haffects⟩ := exec_affects i s
  rw [hexec]
  rcases finish_cases s r with ⟨u, hr, hend⟩ | ⟨e, -, hend⟩
  · exact .inr ⟨u.complete, hend, (haffects u hr).complete_frame⟩
  · exact .inl ⟨e, hend⟩

/-! INTERNAL (R231): its three checks pass, and no other check names it. -/

/-- The answer of a command's checks and effect is not the error INTERNAL. -/
def NotInternal (r : Except CmdError State) : Prop := r ≠ .error .internal

namespace NotInternal

theorem ok (u : State) : NotInternal (.ok u) := nofun

theorem error {e : CmdError} (he : e ≠ .internal) : NotInternal (.error e) := fun h => he (Except.error.inj h)

/-- A check with another error. -/
theorem check {c : Prop} [Decidable c] {e : CmdError} {k : Except CmdError State} (he : e ≠ .internal)
    (h : NotInternal k) : NotInternal (if c then .error e else k) := by
  split
  · exact error he
  · exact h

/-- A check of edge lists that pass it (R173). -/
theorem checkEdges {c : Prop} [Decidable c] {k : Except CmdError State} (hc : c) (h : NotInternal k) :
    NotInternal (if ¬ c then .error .internal else k) := by
  rw [if_neg (not_not.mpr hc)]
  exact h

theorem checkLoad {s : State} {k : Except CmdError State} (h : NotInternal k) : NotInternal (checkLoad s k) :=
  check nofun (check nofun (check nofun h))

theorem checkEncoder {s : State} {k : Except CmdError State} (h : NotInternal k) : NotInternal (checkEncoder s k) :=
  check nofun (check nofun h)

theorem appendOutput (s : State) (out : List Byte) : NotInternal (appendOutput s out) := check nofun (ok _)

end NotInternal

/-- Every command ends through `finish` with an answer other than INTERNAL, shown check by check (R224, R231). -/
theorem exec_notInternal (i : Instr) (s : State) : ∃ r, exec i s = finish s r ∧ NotInternal r := by
  cases i with
  | nop => exact ⟨_, rfl, .ok s⟩
  | qselect => exact ⟨_, rfl, .check nofun (.ok _)⟩
  | luma => exact ⟨_, rfl, .ok _⟩
  | grayidx =>
    refine ⟨_, rfl, ?_⟩
    split <;> exact .ok _
  | cubeidx => exact ⟨_, rfl, .ok _⟩
  | cdist => exact ⟨_, rfl, .ok _⟩
  | qtrunc => exact ⟨_, rfl, .ok _⟩
  | palread =>
    refine ⟨_, rfl, ?_⟩
    split
    · exact .ok _
    · exact .check nofun (.check nofun (.ok _))
  | loadgray => exact ⟨_, rfl, .check nofun (.checkLoad (.ok _))⟩
  | map256 => exact ⟨_, rfl, .check nofun (.checkLoad (.ok _))⟩
  | dither => exact ⟨_, rfl, .check nofun (.check nofun (.check nofun (.check nofun (.ok _))))⟩
  | sixchar pc b => exact ⟨_, rfl, .check nofun (.check nofun (.check nofun (.check nofun (.ok _))))⟩
  | encseg pc b =>
    exact ⟨_, rfl, .check nofun (.check nofun (.checkEncoder
      (.checkEdges (edges_consistent _ _ _) (.appendOutput s _))))⟩
  | encband b =>
    exact ⟨_, rfl, .check nofun (.check nofun (.checkEncoder
      (.checkEdges (bandConsistent_all s b) (.appendOutput s _))))⟩
  | encframe =>
    exact ⟨_, rfl, .check nofun (.check nofun (.checkEncoder
      (.checkEdges (fun b _ => bandConsistent_all s b) (.appendOutput s _))))⟩

/-- Code 4 is INTERNAL's alone (R220). -/
theorem eq_internal_of_code {e : CmdError} (h : e.code = 4#4) : e = .internal := by
  cases e
  case internal => rfl
  all_goals exact absurd h (by decide)

/-- Only an answer of INTERNAL ends in its error state: a completion shows DONE, another error another code. -/
theorem eq_internal_of_finish {s : State} {r : Except CmdError State}
    (h : finish s r = .next (errorState s .internal)) : r = .error .internal := by
  rcases finish_cases s r with ⟨u, -, hend⟩ | ⟨e, hr, hend⟩
  · have hstate : u.complete = errorState s .internal := Host.Outcome.next.inj (hend.symm.trans h)
    have hdone : true = false := congrArg (·.regs.status.done) hstate
    contradiction
  · have hstate : errorState s e = errorState s .internal := Host.Outcome.next.inj (hend.symm.trans h)
    have hcode : e.code = 4#4 := congrArg (·.regs.status.errcode) hstate
    rw [hr, eq_internal_of_code hcode]

/-- Settles O27: no command's answer is INTERNAL, and no other answer ends as INTERNAL does. -/
theorem internalNeverRaised : Obligations.InternalNeverRaised := by
  unfold Obligations.InternalNeverRaised
  intro i s h
  obtain ⟨r, hexec, hnot⟩ := exec_notInternal i s
  exact hnot (eq_internal_of_finish (hexec.symm.trans h))

end Sys2Proof.Machine
end

section
/-! PROOFS. The hard reset, and register writes while a command is in flight (R250 to R252, R254). -/
namespace Sys2Proof.Machine

/-- A hard reset is the host's turn whether or not a command is in flight, and resets the block (R250, R252). -/
theorem step_hardReset {s : State} {rest : List HostAction} (h : s.host = .hardReset :: rest) :
    step s = .next (State.resetBlock { s with host := rest }) := step_host h (.inr nofun)

/-- Settles O10: the step is the reset of the block, whose only change to memory is to the abandoned command's bytes. -/
theorem hardResetEffect : Obligations.HardResetEffect := by
  unfold Obligations.HardResetEffect
  intro s rest h
  exact ⟨_, step_hardReset h, rfl, resetBlock_hostRace _, resetBlock_params _, resetBlock_host _,
    fun _ ha => resetBlock_byteAt_of_not_target (s := { s with host := rest }) ha⟩

/-- While BUSY a write to a register other than CTRL and STATUS is ignored, a word offered in CMD too (R84, R254). -/
theorem writeReg_of_busy {s : State} (hbusy : s.regs.status.busy = true) {reg : Reg} (hctrl : reg ≠ .ctrl)
    (hstatus : reg ≠ .status) (v : Word) : s.writeReg reg v = s := by
  cases reg
  case ctrl => exact absurd rfl hctrl
  case status => exact absurd rfl hstatus
  case cmd => simp [State.writeReg, State.offerWord, hbusy]
  all_goals exact if_pos hbusy

/-- While BUSY a write to CTRL without SRST stores its interrupt enables only (R254). -/
theorem writeReg_ctrl_of_busy {s : State} (hbusy : s.regs.status.busy = true) {v : Word} (h : v[0] = false) :
    s.writeReg .ctrl v = { s with regs := { s.regs with
      ctrl := { s.regs.ctrl with ieDone := v[1], ieErr := v[2] } } } := by
  simp [State.writeReg, State.writeCtrl, Ctrl.write, h, hbusy]

/-- A write to STATUS clears what its bits 1 and 2 name, whatever BUSY is (R23, R254). -/
theorem writeReg_status (s : State) (v : Word) : s.writeReg .status v =
    { s with regs := { s.regs with status := { s.regs.status with
      done := s.regs.status.done && !v[1]
      err := s.regs.status.err && !v[2]
      errcode := if v[2] then 0#4 else s.regs.status.errcode } } } := rfl

/-- Settles O17: the step writes the register reached, and each clause is what that write does while BUSY. -/
theorem registerWritesWhileBusy : Obligations.RegisterWritesWhileBusy := by
  unfold Obligations.RegisterWritesWhileBusy
  intro s reg v rest hbusy h
  rw [step_writeReg h]
  refine ⟨fun hctrl hstatus => ?_, ?_, ?_, ?_⟩
  · rw [writeReg_of_busy (s := { s with host := rest }) hbusy hctrl hstatus]
  · rintro rfl hsrst
    rw [writeReg_ctrl_of_busy (s := { s with host := rest }) hbusy hsrst]
  · rintro rfl hsrst
    exact ⟨_, rfl, by rw [writeReg_ctrl_srst _ hsrst, resetBlock_regs]⟩
  · rintro rfl
    rw [writeReg_status]

end Sys2Proof.Machine
end
